-- ==== Sys2Proof/Word.lean ====
section
/-! DEFINITION. The word types of the block: bytes, and the narrower fields the spec cuts out of them (R7, R69). -/

namespace Sys2Proof

/-- A byte: 8 bits, unsigned, bit 0 the least significant (R7). -/
abbrev Byte := BitVec 8

/-- The digit-select field: the low 6 bits of a byte written to port 0x02 (R13, R63). -/
abbrev Strobe := BitVec 6

/-- A column: one 7-bit thermal-head activation value (R170). -/
abbrev Column := BitVec 7

/-- A PCM sample: 16 bits, two's complement (R157). -/
abbrev Sample := BitVec 16

/-- The transaction word `W`: `W[16] = dir`, `W[15:8] = port`, `W[7:0] = value` (R67). -/
abbrev TransWord := BitVec 17

end Sys2Proof
end

