-- ==== Sys2Proof/Config.lean ====
section
/-! DEFINITION. The configuration record CFG of rule R5: what one implementation fixes, its fixed constants,
and the reference configuration. State holds a `Config` that no step writes (log entry 1). -/

namespace Sys2Proof

/-- A non-negative rational `num / den`; the configuration is admitted only when both parts are positive
(R5, D17; log entry 19). -/
structure Ratio where
  num : Nat
  den : Nat
  deriving DecidableEq, Repr

/-- A key map entry: `pc` the strobe mask the key needs, `pa` the byte it returns (R120). -/
structure KeyEntry where
  pc : Byte
  pa : Byte
  deriving DecidableEq, Repr

/-- The two readings of "printer inactive" (`PRINTER_ACTIVE_DEF`, R93). -/
inductive PrinterActiveDef where
  | attached
  | motor
  deriving DecidableEq, Repr

/-- The configuration `CFG` (R5). -/
structure Config where
  clockHz : Ratio
  avgBitT : Ratio
  keymap : Vector KeyEntry 36
  keypadPort : Option Byte
  tapeinPort : Option Byte
  printerPresent : Bool
  printerActiveDef : PrinterActiveDef
  intData : Byte
  watchdogReload : Nat
  tgPhaseWidth : Nat
  headHeight : Nat
  lineSpacing : Nat
  paperMaxY : Nat
  paperResetY : Nat
  deriving DecidableEq, Repr

namespace Config

/-- `SEG_OFF_N`, fixed (R5, R103). -/
def segOffN : Nat := 2

/-- `KEYHOLD_INIT`, fixed (R5, R125). -/
def keyHoldInit : Int := 4

/-- `BITS_PER_BYTE_TAPE`, fixed (R5, R141). -/
def bitsPerByteTape : Nat := 10

/-- `SAMPLE_RATE`, fixed (R5, R155). -/
def sampleRate : Nat := 44100

/-- `PCM_HI`, fixed (R5, R157). -/
def pcmHi : Sample := BitVec.ofInt 16 16000

/-- `PCM_LO`, fixed (R5, R157). -/
def pcmLo : Sample := BitVec.ofInt 16 (-16000)

/-- `UNMAPPED_READ`, fixed (R5, R90). -/
def unmappedRead : Byte := 0xFF

/-- The `pc` fields of the key map that the source does not give (R120, D39): a free value, so that no proof
can lean on an invented table (log entry 3). -/
opaque openKeyPc : Fin 36 → Byte

/-- The `pa` fields of the key map that the source does not give (R120, D39): a free value (log entry 3). -/
opaque openKeyPa : Fin 36 → Byte

/-- The key map about which nothing is known (log entry 3). -/
def openKeymap : Vector KeyEntry 36 :=
  ⟨⟨(List.finRange 36).map fun i => ⟨openKeyPc i, openKeyPa i⟩⟩, by simp⟩

/-- The reference configuration: the values in the "value" column of rule R5 (log entry 2). No claim about the
hardware may rest on them. -/
def reference : Config where
  clockHz := ⟨1790000, 1⟩
  avgBitT := ⟨10746, 1⟩
  keymap := openKeymap
  keypadPort := some 0x00
  tapeinPort := none
  printerPresent := true
  printerActiveDef := .attached
  intData := 0xFF
  watchdogReload := 1000
  tgPhaseWidth := 2
  headHeight := 7
  lineSpacing := 3
  paperMaxY := 1000
  paperResetY := 0

end Config

end Sys2Proof
end

