-- ==== Sys2Proof/Syntax.lean ====
section
/-! DEFINITION. The operations of the block (R66): `Instr`, one constructor per row of spec/opcode_table.json, and
`Request`, the form in which an operation arrives from outside (R60, R68). -/

namespace Sys2Proof

/-- The decoded operations, one constructor per row of the operation map (R66). Every bus operation keeps its T-state
stamp `t` (R60). A row whose port is a parameter of the configuration keeps the port it was decoded from. -/
inductive Instr where
  /-- `OUT.SEG`: write to port 0x01 (R82). -/
  | outSeg (value : Byte) (t : Nat)
  /-- `OUT.DIG`: write to port 0x02 (R83). -/
  | outDig (value : Byte) (t : Nat)
  /-- `OUT.PRT`: write to port 0xCA (R84). -/
  | outPrt (value : Byte) (t : Nat)
  /-- `IN.PRT`: read of port 0xCB (R85). -/
  | inPrt (t : Nat)
  /-- `IN.KEY`: read of `KEYPAD_PORT` (R86). -/
  | inKey (port : Byte) (t : Nat)
  /-- `IN.TAPE`: read of `TAPEIN_PORT` (R87). -/
  | inTape (port : Byte) (t : Nat)
  /-- `IN.WO`: read of write-only port 0x01 (R88). -/
  | inWoSeg (t : Nat)
  /-- `IN.WO`: read of write-only port 0x02 (R88). -/
  | inWoDig (t : Nat)
  /-- `IN.WO`: read of write-only port 0xCA (R88). -/
  | inWoPrt (t : Nat)
  /-- `OUT.RO`: write to read-only port 0xCB (R89). -/
  | outRoPrt (value : Byte) (t : Nat)
  /-- `OUT.RO`: write to `KEYPAD_PORT` (R89). -/
  | outRoKey (port value : Byte) (t : Nat)
  /-- `OUT.RO`: write to `TAPEIN_PORT` (R89). -/
  | outRoTape (port value : Byte) (t : Nat)
  /-- `IN.UNMAPPED`: read of a port no earlier row names (R90). -/
  | inUnmapped (port : Byte) (t : Nat)
  /-- `OUT.UNMAPPED`: write to a port no earlier row names (R91). -/
  | outUnmapped (port value : Byte) (t : Nat)
  /-- `RESET` (R230). -/
  | reset
  /-- `DISPLAY_CLEAR` (R106). -/
  | displayClear
  /-- `CLICK row, col` (R121). -/
  | click (row col : Nat)
  /-- `LOAD_TAPE hexText` (R145); the text is its sequence of characters. -/
  | loadTape (hexText : List Char)
  /-- `START_RECORDING` (R153). -/
  | startRecording
  /-- `SYNTH_WAV` (R155). -/
  | synthWav
  deriving DecidableEq, Repr

/-- An operation as it arrives from outside. -/
inductive Request where
  /-- Format B, from the CPU core (R60). `write` is `dir`; `port` and `value` are whatever numbers the caller passes,
  masked to 8 bits before routing (R41); on a read `value` is carried as don't-care. -/
  | bus (write : Bool) (port value : Nat) (t : Nat)
  /-- Format H, from the host (R68). The operands are typed values; those the selected operation does not take are
  don't-care (log entry 6). -/
  | host (hhh : BitVec 3) (row col : Nat) (hexText : List Char)
  deriving DecidableEq, Repr

/-- Why the decoder rejects a request. -/
inductive Reject where
  /-- Host selectors 110 and 111 name no operation (R68, X3). -/
  | undefinedHostSelector (hhh : BitVec 3)
  deriving DecidableEq, Repr

end Sys2Proof
end

