-- ==== Sys2Proof/WellFormed.lean ====
section
/-! DEFINITION. Well-formedness of an operation under a configuration: the port an operation keeps is one its row of
the operation map selects on (R66, first match by R67). -/

namespace Sys2Proof

/-- The ports the source's own map names (R46). -/
def isFixedPort (p : Byte) : Bool :=
  p == 0x01 || p == 0x02 || p == 0xCA || p == 0xCB

/-- The port belongs to no device (R66, the two catch-all rows). -/
def isUnmappedPort (cfg : Config) (p : Byte) : Bool :=
  !isFixedPort p && cfg.keypadPort != some p && cfg.tapeinPort != some p

/-- The operation is one that its row of the operation map gives under this configuration (R66). -/
def Instr.wellFormed (cfg : Config) : Instr → Bool
  | .outSeg _ _ => true
  | .outDig _ _ => true
  | .outPrt _ _ => true
  | .inPrt _ => true
  | .inKey p _ => cfg.keypadPort == some p
  | .inTape p _ => cfg.tapeinPort == some p
  | .inWoSeg _ => true
  | .inWoDig _ => true
  | .inWoPrt _ => true
  | .outRoPrt _ _ => true
  | .outRoKey p _ _ => cfg.keypadPort == some p
  | .outRoTape p _ _ => cfg.tapeinPort == some p
  | .inUnmapped p _ => isUnmappedPort cfg p
  | .outUnmapped p _ _ => isUnmappedPort cfg p
  | .reset => true
  | .displayClear => true
  | .click _ _ => true
  | .loadTape _ => true
  | .startRecording => true
  | .synthWav => true

end Sys2Proof
end

