-- ==== Sys2Proof/Decode.lean ====
section
/-! DEFINITION. The decoder and the encoder of operations (R60, R66, R67, R68), and the reading of a word of
spec/opcode_table.json. Decoding of bus operations is total (R70, R92); of host selectors only 110 and 111 are
rejected (R68). -/

namespace Sys2Proof

/-- `x & 0xFF` (R41). -/
def mask8 (x : Nat) : Byte := BitVec.ofNat 8 x

/-- The transaction word of a bus operation: `port` and `value` masked (R41) and packed (R67). -/
def transWord (write : Bool) (port value : Nat) : TransWord :=
  BitVec.ofBool write ++ (mask8 port ++ mask8 value)

/-- `W[16]`, the direction: true for a write (R67). -/
def wordDir (w : TransWord) : Bool := w.getLsbD 16

/-- `W[15:8]`, the port (R67). -/
def wordPort (w : TransWord) : Byte := w.extractLsb' 8 8

/-- `W[7:0]`, the value (R67). -/
def wordValue (w : TransWord) : Byte := w.extractLsb' 0 8

/-- The rows of the operation map with `dir = 1`, by first match (R66, R67). -/
def decodeWrite (cfg : Config) (port value : Byte) (t : Nat) : Instr :=
  if port = 0x01 then .outSeg value t
  else if port = 0x02 then .outDig value t
  else if port = 0xCA then .outPrt value t
  else if port = 0xCB then .outRoPrt value t
  else if cfg.keypadPort = some port then .outRoKey port value t
  else if cfg.tapeinPort = some port then .outRoTape port value t
  else .outUnmapped port value t

/-- The rows of the operation map with `dir = 0`, by first match (R66, R67). -/
def decodeRead (cfg : Config) (port : Byte) (t : Nat) : Instr :=
  if port = 0xCB then .inPrt t
  else if cfg.keypadPort = some port then .inKey port t
  else if cfg.tapeinPort = some port then .inTape port t
  else if port = 0x01 then .inWoSeg t
  else if port = 0x02 then .inWoDig t
  else if port = 0xCA then .inWoPrt t
  else .inUnmapped port t

/-- The operation a transaction word stands for, with its stamp beside it (R67). -/
def decodeWord (cfg : Config) (w : TransWord) (t : Nat) : Instr :=
  if wordDir w then decodeWrite cfg (wordPort w) (wordValue w) t
  else decodeRead cfg (wordPort w) t

/-- The operation a host selector names, with its typed operands (R68). -/
def decodeHost (hhh : BitVec 3) (row col : Nat) (hexText : List Char) : Except Reject Instr :=
  if hhh = 0b000 then .ok .reset
  else if hhh = 0b001 then .ok .displayClear
  else if hhh = 0b010 then .ok (.click row col)
  else if hhh = 0b011 then .ok (.loadTape hexText)
  else if hhh = 0b100 then .ok .startRecording
  else if hhh = 0b101 then .ok .synthWav
  else .error (.undefinedHostSelector hhh)

/-- The decoder. -/
def decode (cfg : Config) : Request → Except Reject Instr
  | .bus write port value t => .ok (decodeWord cfg (transWord write port value) t)
  | .host hhh row col hexText => decodeHost hhh row col hexText

/-- The encoder: the request that stands for an operation, don't-care operands zero (R66, R67, R68). -/
def encode : Instr → Request
  | .outSeg v t => .bus true 0x01 v.toNat t
  | .outDig v t => .bus true 0x02 v.toNat t
  | .outPrt v t => .bus true 0xCA v.toNat t
  | .inPrt t => .bus false 0xCB 0 t
  | .inKey p t => .bus false p.toNat 0 t
  | .inTape p t => .bus false p.toNat 0 t
  | .inWoSeg t => .bus false 0x01 0 t
  | .inWoDig t => .bus false 0x02 0 t
  | .inWoPrt t => .bus false 0xCA 0 t
  | .outRoPrt v t => .bus true 0xCB v.toNat t
  | .outRoKey p v t => .bus true p.toNat v.toNat t
  | .outRoTape p v t => .bus true p.toNat v.toNat t
  | .inUnmapped p t => .bus false p.toNat 0 t
  | .outUnmapped p v t => .bus true p.toNat v.toNat t
  | .reset => .host 0b000 0 0 []
  | .displayClear => .host 0b001 0 0 []
  | .click row col => .host 0b010 row col []
  | .loadTape text => .host 0b011 0 0 text
  | .startRecording => .host 0b100 0 0 []
  | .synthWav => .host 0b101 0 0 []

/-- The request whose bits are `w`, numbered as spec/opcode_table.json numbers them: a row of at most 8 bits is a host
selector (R68), a longer one the transaction word `W` (R67). What the table gives no bits (the stamp, the operands of a
host operation) is zero (log entry 6). -/
def requestOfWord (nbits w : Nat) : Option Request :=
  if nbits ≤ 8 then
    if w < 8 then some (.host (BitVec.ofNat 3 w) 0 0 []) else none
  else if w < 131072 then some (.bus (decide (65536 ≤ w)) (w / 256 % 256) (w % 256) 0)
  else none

/-- The operation the decoder reads from a word of the opcode table, under the reference configuration
(R67: "opcode_table.json gives them for the reference configuration"). -/
def decodeTableWord (nbits w : Nat) : Option Instr :=
  match requestOfWord nbits w with
  | none => none
  | some r =>
    match decode Config.reference r with
    | .ok i => some i
    | .error _ => none

end Sys2Proof
end

