-- ==== Sys2Proof/Machine/State.lean ====
section
/-! DEFINITION. The state of the block: every element of spec/10_state.md rules R13 to R35, grouped by the device that
owns it, with the configuration, the operations issued and not yet taken, and the value the latest operation returned.
Then the reasons a step can stop, and the state after reset (R231). -/

namespace Sys2Proof.Machine

/-- The eight segments (R14). -/
inductive Seg where
  | a | b | c | d | e | f | g | dp
  deriving DecidableEq, Repr

/-- One value per segment. -/
structure PerSeg (α : Type) where
  a : α
  b : α
  c : α
  d : α
  e : α
  f : α
  g : α
  dp : α
  deriving DecidableEq, Repr

/-- The six display positions (R102). -/
inductive Slot where
  | s0 | s1 | s2 | s3 | s4 | s5
  deriving DecidableEq, Repr

/-- One value per display position. -/
structure PerSlot (α : Type) where
  s0 : α
  s1 : α
  s2 : α
  s3 : α
  s4 : α
  s5 : α
  deriving DecidableEq, Repr

/-- One segment's state machine: its on/off value (R14) and its zero-write counter (R15). -/
structure SegState where
  on : Bool
  zc : Nat
  deriving DecidableEq, Repr

/-- The display driver's state (R13 to R17). -/
structure Display where
  ds : Strobe
  seg : PerSeg SegState
  glyph : PerSlot (PerSeg Bool)
  deriving DecidableEq, Repr

/-- The keypad scanner's state (R18 to R20). -/
structure Keypad where
  keyRow : Fin 4
  keyCol : Fin 9
  keyLatch : Bool
  keyHold : Int
  deriving DecidableEq, Repr

/-- An entry of the edge log: a level (true for 1) and its T-state stamp (R23). -/
structure Edge where
  level : Bool
  t : Nat
  deriving DecidableEq, Repr

/-- The tape subsystem's state (R21 to R24). `toneLevel` true is level 1. -/
structure Tape where
  sourceBytes : List Byte
  originPending : Bool
  playbackOriginT : Nat
  edgeLog : List Edge
  toneLevel : Bool
  deriving DecidableEq, Repr

/-- The head phases (R26). `ret` is the spec's `RETURN`. -/
inductive HeadPhase where
  | idle
  | right
  | ret
  deriving DecidableEq, Repr

/-- A printed dot (R31). -/
structure Dot where
  x : Nat
  y : Nat
  deriving DecidableEq, Repr

/-- The printer mechanism's state (R25 to R33). `paper` is a finite set of dots, held strictly sorted
(log entry 33). -/
structure Printer where
  motorOn : Bool
  headPhase : HeadPhase
  tgPulseCounter : Nat
  lineQueueDepth : Nat
  homePosition : Bool
  columnBuffer : List Column
  paper : List Dot
  paperY : Nat
  cursorX : Nat
  lineHasData : Bool
  skipFirst : Bool
  watchdog : Nat
  deriving DecidableEq, Repr

/-- The requests to the CPU core (R206). -/
inductive CpuReq where
  | resetPC
  | nmiAndEnable
  | int (data : Byte)
  deriving DecidableEq, Repr

/-- The diagnostics (R200), each with its operands. `romWrite` is raised by the memory image, which is outside the
block: no operation of the block logs it. -/
inductive Diag where
  | unmappedRead (port : Byte)
  | unmappedWrite (port value : Byte)
  | badHexLine (index : Nat)
  | wavTooFewEdges (n : Nat)
  | badClick (row col : Nat)
  | romWrite (address : BitVec 16) (value : Byte)
  deriving DecidableEq, Repr

/-- What an operation returns to its issuer: nothing (a write or a command), the byte of a read (R60), or the
optional byte sequence of `SYNTH_WAV` (R155). -/
inductive Result where
  | nothing
  | byte (b : Byte)
  | file (bytes : Option (List Byte))
  deriving DecidableEq, Repr

/-- The state of the block. -/
structure State where
  /-- The configuration CFG (R5), written by no step (log entry 1). -/
  cfg : Config
  /-- The operations issued by the CPU core and the host and not yet taken, in issue order (R51, R52; the model's own
  field, log entry 4). -/
  input : List Request
  /-- What the latest operation returned (R60; the model's own field, log entry 5). -/
  result : Result
  disp : Display
  keyp : Keypad
  tape : Tape
  prt : Printer
  /-- The requests made to the CPU core, oldest first (R34). -/
  cpuReq : List CpuReq
  /-- The diagnostics logged, oldest first (R35). -/
  diagLog : List Diag
  deriving DecidableEq, Repr

/-- The block has no fault: "there is no fatal error path" (R92, R201, R204), so this type has no constructor. -/
inductive Fault where
  deriving DecidableEq, Repr

/-- Why a step is given no meaning (R204). -/
inductive Refusal where
  /-- Raised by `exec` for an instruction without a meaning; no instruction is left so. Safe. -/
  | notModelled (mnemonic : String)
  /-- Raised by `step` when the configuration breaks a constraint (R5, X1). Safe: the spec gives such a run no meaning. -/
  | badConfiguration
  /-- Raised by `step` when the decoder rejects the request (R68, X3). Safe: the selector names no operation. -/
  | rejected (why : Reject)
  /-- Raised by `IN.TAPE` for a stamp before the playback origin (R61 test (a), X2). Safe. -/
  | stampBeforeOrigin
  /-- Raised by `OUT.DIG` for a stamp before the last logged edge (R61 test (b), X2). Safe. -/
  | stampBeforeLastEdge
  /-- Raised by `SYNTH_WAV` when `36 + dataLen` does not fit 32 bits (R156, X4). Safe. -/
  | wavTooLong
  deriving DecidableEq, Repr

/-- All eight values the same. -/
def PerSeg.all {α : Type} (x : α) : PerSeg α := ⟨x, x, x, x, x, x, x, x⟩

/-- All six values the same. -/
def PerSlot.all {α : Type} (x : α) : PerSlot α := ⟨x, x, x, x, x, x⟩

/-- The display driver after reset (R231). -/
def Display.reset : Display where
  ds := 0
  seg := PerSeg.all ⟨false, 0⟩
  glyph := PerSlot.all (PerSeg.all false)

/-- The keypad scanner after reset (R231). -/
def Keypad.reset : Keypad where
  keyRow := 0
  keyCol := 0
  keyLatch := false
  keyHold := 4

/-- The tape subsystem after reset (R231). -/
def Tape.reset : Tape where
  sourceBytes := []
  originPending := true
  playbackOriginT := 0
  edgeLog := []
  toneLevel := false

/-- The printer after reset (R231). -/
def Printer.reset (cfg : Config) : Printer where
  motorOn := false
  headPhase := .idle
  tgPulseCounter := 0
  lineQueueDepth := 0
  homePosition := true
  columnBuffer := []
  paper := []
  paperY := cfg.paperResetY
  cursorX := 0
  lineHasData := false
  skipFirst := false
  watchdog := 0

/-- The reset state of a block with the configuration `cfg` (R231), no operation issued. -/
def State.resetWith (cfg : Config) : State where
  cfg := cfg
  input := []
  result := .nothing
  disp := Display.reset
  keyp := Keypad.reset
  tape := Tape.reset
  prt := Printer.reset cfg
  cpuReq := []
  diagLog := []

/-- The machine right after reset (R231), with the reference configuration (log entry 2). -/
def State.reset : State := State.resetWith Config.reference

end Sys2Proof.Machine
end

