-- ==== Sys2Proof/Machine/Ops.lean ====
section
/-! DEFINITION. The shared operations: reading and writing one segment's or one slot's value, replacing one device's
state, logging a diagnostic (R200), sending a request to the CPU core (R206), returning a result (R60), and taking the
next operation issued (R50). The block takes no exception and returns from none (R209, R210): its requests to the CPU
core are the one thing it has in their place. -/

namespace Sys2Proof.Machine

/-- The value of segment `k`. -/
def PerSeg.get {α : Type} (v : PerSeg α) : Seg → α
  | .a => v.a
  | .b => v.b
  | .c => v.c
  | .d => v.d
  | .e => v.e
  | .f => v.f
  | .g => v.g
  | .dp => v.dp

/-- `h` applied to every segment's value. -/
def PerSeg.map {α β : Type} (h : α → β) (v : PerSeg α) : PerSeg β :=
  ⟨h v.a, h v.b, h v.c, h v.d, h v.e, h v.f, h v.g, h v.dp⟩

/-- The value of slot `s`. -/
def PerSlot.get {α : Type} (v : PerSlot α) : Slot → α
  | .s0 => v.s0
  | .s1 => v.s1
  | .s2 => v.s2
  | .s3 => v.s3
  | .s4 => v.s4
  | .s5 => v.s5

/-- `v` with the value of slot `s` replaced. -/
def PerSlot.set {α : Type} (v : PerSlot α) (s : Slot) (x : α) : PerSlot α :=
  match s with
  | .s0 => { v with s0 := x }
  | .s1 => { v with s1 := x }
  | .s2 => { v with s2 := x }
  | .s3 => { v with s3 := x }
  | .s4 => { v with s4 := x }
  | .s5 => { v with s5 := x }

/-- `s` with the display driver replaced. -/
def State.setDisp (s : State) (d : Display) : State := { s with disp := d }

/-- `s` with the keypad scanner replaced. -/
def State.setKeyp (s : State) (k : Keypad) : State := { s with keyp := k }

/-- `s` with the tape subsystem replaced. -/
def State.setTape (s : State) (t : Tape) : State := { s with tape := t }

/-- `s` with the printer replaced. -/
def State.setPrt (s : State) (p : Printer) : State := { s with prt := p }

/-- The operation returns `r` to its issuer (R60, R155). -/
def State.returns (s : State) (r : Result) : State := { s with result := r }

/-- `diag(...)`: the diagnostics `ds` appended to `diagLog` (R200). -/
def State.logDiags (s : State) (ds : List Diag) : State := { s with diagLog := s.diagLog ++ ds }

/-- `emit cpuReq(e)`: the request, if there is one, appended to `cpuReq` (R206). -/
def State.emitReq (s : State) (e : Option CpuReq) : State := { s with cpuReq := s.cpuReq ++ e.toList }

/-- `s` with `rs` as the operations issued and not yet taken. -/
def State.setInput (s : State) (rs : List Request) : State := { s with input := rs }

/-- The next operation issued, and the state with it taken (R50, R51); none when nothing is issued. -/
def nextRequest (s : State) : Option (Request × State) :=
  match s.input with
  | [] => none
  | r :: rest => some (r, s.setInput rest)

end Sys2Proof.Machine
end

