-- ==== Sys2Proof/Machine/Operands.lean ====
section
/-! DEFINITION. Operand assembly: every place where an operand is cut out of a byte or put together (R69). -/

namespace Sys2Proof.Machine

/-- Digit select: `value & 0x3F` (R63, R69). -/
def digitSelect (value : Byte) : Strobe := value.setWidth 6

/-- The slot a digit-select value selects: `i` such that `ds == 1 << i`; none otherwise (R102). -/
def slotOf (ds : Strobe) : Option Slot :=
  if ds = 0x01 then some .s0
  else if ds = 0x02 then some .s1
  else if ds = 0x04 then some .s2
  else if ds = 0x08 then some .s3
  else if ds = 0x10 then some .s4
  else if ds = 0x20 then some .s5
  else none

/-- The segment each bit of a segment-data byte names (R16, R62). -/
def segOfBit (i : Fin 8) : Seg :=
  match i with
  | 0 => .e
  | 1 => .g
  | 2 => .f
  | 3 => .a
  | 4 => .b
  | 5 => .c
  | 6 => .dp
  | 7 => .d

/-- The segment bits of a byte, by segment (R16, R62). -/
def segBits (value : Byte) : PerSeg Bool where
  e := value.getLsbD 0
  g := value.getLsbD 1
  f := value.getLsbD 2
  a := value.getLsbD 3
  b := value.getLsbD 4
  c := value.getLsbD 5
  dp := value.getLsbD 6
  d := value.getLsbD 7

/-- Output level: `value[7]` (R63, R69). -/
def outputLevel (value : Byte) : Bool := value.getLsbD 7

/-- Motor command: `value[7]` (R64, R69). -/
def motorCommand (value : Byte) : Bool := value.getLsbD 7

/-- Thermal pins: `value & 0x7F` (R64, R69). -/
def thermalPins (value : Byte) : Column := value.setWidth 7

/-- Key location: `keyRow*9 + keyCol`, 0 to 35 (R122). -/
def keyLoc (row : Fin 4) (col : Fin 9) : Fin 36 :=
  ⟨row.val * 9 + col.val, by omega⟩

/-- Tape-in byte of a level: 0x80 for high, 0x00 for low (R65, R147). -/
def levelByte (high : Bool) : Byte := if high then 0x80 else 0x00

/-- Status byte: `(homePosition ? 0x02 : 0x00) | tg` (R65, R69). -/
def statusByte (home tg : Bool) : Byte := (if home then 0x02 else 0x00) ||| (if tg then 0x01 else 0x00)

end Sys2Proof.Machine
end

