-- ==== Sys2Proof/Machine/Timing.lean ====
section
/-! DEFINITION. Exact rational arithmetic on naturals (R7, R149), the timing constants derived from the configuration
(R6, R140), and the constraints a configuration must meet (R5, R81, R140). -/

namespace Sys2Proof.Machine

/-- `floor(n / q)` for a natural `n` and a positive rational `q` (R7, R149). -/
def floorDiv (n : Nat) (q : Ratio) : Nat := n * q.den / q.num

/-- `round(q / k)` with `round(x) = floor(x + 1/2)`, for a positive rational `q` and a positive natural `k`
(R7, R140). -/
def roundDiv (q : Ratio) (k : Nat) : Nat := (2 * q.num + k * q.den) / (2 * k * q.den)

/-- `HALF_2K`, T-states in half a period of the 2 kHz tone (R140). -/
def half2k (cfg : Config) : Nat := roundDiv cfg.clockHz 4000

/-- `HALF_1K`, T-states in half a period of the 1 kHz tone; no rule reads it (R140). -/
def half1k (cfg : Config) : Nat := roundDiv cfg.clockHz 2000

/-- `BYTE_T`, T-states given to one tape byte (R140). -/
def byteT (cfg : Config) : Ratio := ⟨cfg.avgBitT.num * Config.bitsPerByteTape, cfg.avgBitT.den⟩

/-- A parameter port, when present, is none of the ports the source's map names (R5, R81). -/
def portFree (p : Option Byte) : Bool :=
  match p with
  | none => true
  | some q => q != 0x01 && q != 0x02 && q != 0xCA && q != 0xCB

/-- Both parts of the rational are positive. -/
def ratioPositive (q : Ratio) : Bool := decide (0 < q.num) && decide (0 < q.den)

/-- Every constraint on the configuration holds (R5, R81, R140, X1). That the key map has 36 entries is in its type. -/
def admitted (cfg : Config) : Bool :=
  portFree cfg.keypadPort && portFree cfg.tapeinPort
    && (cfg.keypadPort == none || cfg.keypadPort != cfg.tapeinPort)
    && ratioPositive cfg.clockHz && ratioPositive cfg.avgBitT
    && decide (1 ≤ half2k cfg)
    && decide (1 ≤ cfg.watchdogReload) && decide (1 ≤ cfg.tgPhaseWidth)
    && decide (cfg.paperResetY ≤ cfg.paperMaxY)

end Sys2Proof.Machine
end

