-- ==== Sys2Proof/Machine/Flags.lean ====
section
/-! DEFINITION. The one-bit conditions the operations compute. The block has no condition codes and no arithmetic
flags (R36): these are the tests of its rules. -/

namespace Sys2Proof.Machine

/-- The mask test `(zext_8(ds) & pc) == pc` (R69, R124). -/
def maskTest (ds : Strobe) (pc : Byte) : Bool := (ds.setWidth 8 &&& pc) == pc

/-- `printerActive()`: whether port 0xCB answers with the printer status (R93). -/
def printerActive (cfg : Config) (p : Printer) : Bool :=
  match cfg.printerActiveDef with
  | .attached => cfg.printerPresent
  | .motor => cfg.printerPresent && p.motorOn

/-- The TG status bit while the motor is on: `(tgPulseCounter div TG_PHASE_WIDTH) mod 2` (R178). -/
def tgBit (cfg : Config) (p : Printer) : Bool := p.tgPulseCounter / cfg.tgPhaseWidth % 2 == 1

/-- The half-period test of tape playback: `floor(elapsed / HALF_2K)` is even (R147). -/
def levelHigh (cfg : Config) (elapsed : Nat) : Bool := elapsed / half2k cfg % 2 == 0

/-- Stamp test (a): a tape read stamped before the playback origin (R61). -/
def beforeOrigin (tape : Tape) (t : Nat) : Bool := !tape.originPending && decide (t < tape.playbackOriginT)

/-- Stamp test (b): a port 0x02 write stamped before the last logged edge (R61). -/
def beforeLastEdge (tape : Tape) (t : Nat) : Bool :=
  match tape.edgeLog.getLast? with
  | none => false
  | some e => decide (t < e.t)

end Sys2Proof.Machine
end

