-- ==== Sys2Proof/Machine/Display.lean ====
section
/-! DEFINITION. The seven-segment display driver (R100 to R109). -/

namespace Sys2Proof.Machine

/-- `selectDigit(value)` (R101). -/
def selectDigit (d : Display) (value : Byte) : Display := { d with ds := digitSelect value }

/-- One segment's machine, stepped with its bit of a segment-data byte: a set bit turns it on and zeroes the counter, a
clear one counts, and the second in a row turns it off (R103, R107). -/
def stepSegment (bit : Bool) (g : SegState) : SegState :=
  if bit then ⟨true, 0⟩
  else
    let zc := min (g.zc + 1) Config.segOffN
    ⟨if zc = Config.segOffN then false else g.on, zc⟩

/-- The eight machines, stepped in parallel (R103). -/
def stepSegments (value : Byte) (g : PerSeg SegState) : PerSeg SegState :=
  let bits := segBits value
  { a := stepSegment bits.a g.a
    b := stepSegment bits.b g.b
    c := stepSegment bits.c g.c
    d := stepSegment bits.d g.d
    e := stepSegment bits.e g.e
    f := stepSegment bits.f g.f
    g := stepSegment bits.g g.g
    dp := stepSegment bits.dp g.dp }

/-- The emission: all eight on/off values into the selected slot's latch, none when no slot is selected
(R104, R105). -/
def emitGlyph (ds : Strobe) (g : PerSeg SegState) (glyph : PerSlot (PerSeg Bool)) : PerSlot (PerSeg Bool) :=
  match slotOf ds with
  | none => glyph
  | some s => glyph.set s (g.map (·.on))

/-- `writeSegments(value)` (R103). -/
def writeSegments (d : Display) (value : Byte) : Display :=
  let g := stepSegments value d.seg
  { d with seg := g, glyph := emitGlyph d.ds g d.glyph }

/-- `DISPLAY_CLEAR`: segments, counters and glyphs off, `ds` kept (R106). -/
def clearDisplay (d : Display) : Display :=
  { d with seg := PerSeg.all ⟨false, 0⟩, glyph := PerSlot.all (PerSeg.all false) }

end Sys2Proof.Machine
end

