-- ==== Sys2Proof/Machine/Keypad.lean ====
section
/-! DEFINITION. The keypad matrix scanner (R120 to R131). -/

namespace Sys2Proof.Machine

/-- The key map entry of the stored key (R120, R122). -/
def keyEntry (cfg : Config) (k : Keypad) : KeyEntry := cfg.keymap.get (keyLoc k.keyRow k.keyCol)

/-- The stored key is latched and the strobe matches its wiring (R123, R124). -/
def keyMatches (cfg : Config) (ds : Strobe) (k : Keypad) : Bool :=
  k.keyLatch && maskTest ds (keyEntry cfg k).pc

/-- The key-hold countdown of a matching read: decrement, and at a negative value clear the latch and reload
(R125). -/
def holdStep (k : Keypad) : Keypad :=
  if k.keyHold - 1 < 0 then { k with keyLatch := false, keyHold := Config.keyHoldInit }
  else { k with keyHold := k.keyHold - 1 }

/-- The request a special key makes of the CPU core: RESET at 0, INTR at 18, MONI at 9 (R126 to R129). -/
def keyRequest (cfg : Config) (loc : Fin 36) : Option CpuReq :=
  if loc = 0 then some .resetPC
  else if loc = 18 then some .nmiAndEnable
  else if loc = 9 then some (.int cfg.intData)
  else none

/-- What `keypadRead(dsr)` leaves of the scanner (R123). -/
def keypadAfter (cfg : Config) (ds : Strobe) (k : Keypad) : Keypad :=
  if keyMatches cfg ds k then holdStep k else k

/-- The request `keypadRead(dsr)` makes, if any (R123). -/
def keypadReq (cfg : Config) (ds : Strobe) (k : Keypad) : Option CpuReq :=
  if keyMatches cfg ds k then keyRequest cfg (keyLoc k.keyRow k.keyCol) else none

/-- The byte `keypadRead(dsr)` returns: 0xFF for an idle bus, a strobe that does not match, or a special key; else the
key's `pa` (R123, R130). -/
def keypadByte (cfg : Config) (ds : Strobe) (k : Keypad) : Byte :=
  if keyMatches cfg ds k then
    match keyRequest cfg (keyLoc k.keyRow k.keyCol) with
    | some _ => 0xFF
    | none => (keyEntry cfg k).pa
  else 0xFF

/-- `keypadRead(ds)` on the whole state, the dispatcher passing the live `ds` (R94, R123). -/
def readKeypad (s : State) : State :=
  ((s.setKeyp (keypadAfter s.cfg s.disp.ds s.keyp)).emitReq
    (keypadReq s.cfg s.disp.ds s.keyp)).returns (.byte (keypadByte s.cfg s.disp.ds s.keyp))

/-- `recordClick(row, col)` for a position inside the 4 by 9 grid (R121). -/
def recordClick (k : Keypad) (row : Fin 4) (col : Fin 9) : Keypad :=
  { k with keyRow := row, keyCol := col, keyLatch := true }

end Sys2Proof.Machine
end

