-- ==== Sys2Proof/Machine/Printer.lean ====
section
/-! DEFINITION. The thermal printer mechanism (R170 to R185). -/

namespace Sys2Proof.Machine

/-- Dots in order: by `x`, then by `y` (the order of the canonical list that stands for the set `paper`,
log entry 33). -/
abbrev dotLt (p q : Dot) : Prop := p.x < q.x ∨ (p.x = q.x ∧ p.y < q.y)

/-- `paper ∪ {q}`, the list kept strictly sorted (R180). -/
def insertDot (q : Dot) : List Dot → List Dot
  | [] => [q]
  | p :: ps => if q = p then p :: ps else if dotLt q p then q :: p :: ps else p :: insertDot q ps

/-- The dots of the pins `b` in `bs` that fire, at column position `x` of the line at `y`: pin `b` prints at row
`y + (6 - b)` (R180). -/
def plotPins (x y : Nat) (col : Column) : List Nat → List Dot → List Dot
  | [], paper => paper
  | b :: bs, paper =>
    plotPins x y col bs (if col.getLsbD b then insertDot ⟨x, y + (6 - b)⟩ paper else paper)

/-- The dots of buffered columns, the first at position `x` of the line at `y` (R180). -/
def plotColumns (y : Nat) : List Column → Nat → List Dot → List Dot
  | [], _, paper => paper
  | col :: cols, x, paper => plotColumns y cols (x + 1) (plotPins x y col [0, 1, 2, 3, 4, 5, 6] paper)

/-- `flush()`: the column buffer rendered and cleared, the X cursor advanced (R180). -/
def flush (p : Printer) : Printer :=
  { p with
    paper := plotColumns p.paperY p.columnBuffer p.cursorX p.paper
    cursorX := p.cursorX + p.columnBuffer.length
    columnBuffer := [] }

/-- The paper advanced by one line pitch, with the wrap (R173, R182). -/
def advancePaper (cfg : Config) (p : Printer) : Printer :=
  let y := p.paperY + cfg.headHeight + cfg.lineSpacing
  if cfg.paperMaxY < y then { p with paper := [], paperY := cfg.paperResetY } else { p with paperY := y }

/-- `commitLine()` (R173). -/
def commitLine (cfg : Config) (p : Printer) : Printer :=
  { flush (advancePaper cfg p) with lineHasData := false }

/-- `motorStart()`: the rising edge of the motor (R172). -/
def motorStart (cfg : Config) (p : Printer) : Printer :=
  { (if p.lineHasData then commitLine cfg p else p) with
    cursorX := 0
    motorOn := true
    headPhase := .right
    tgPulseCounter := 0
    homePosition := false
    skipFirst := true
    watchdog := cfg.watchdogReload }

/-- `columnWrite(pins)`: a control write that finds and leaves the motor on (R174). -/
def columnWrite (cfg : Config) (p : Printer) (pins : Column) : Printer :=
  { (if p.skipFirst then { p with skipFirst := false }
     else { p with columnBuffer := p.columnBuffer ++ [pins], lineHasData := true }) with
    watchdog := cfg.watchdogReload }

/-- `motorOff()`: through `RETURN` to `IDLE`, flushing on the way (R176). -/
def motorOff (p : Printer) : Printer :=
  { flush { p with motorOn := false, headPhase := .ret } with
    headPhase := .idle
    homePosition := true
    skipFirst := false }

/-- `writeControl(value)` (R171, R177). -/
def writeControl (cfg : Config) (p : Printer) (value : Byte) : Printer :=
  match motorCommand value, p.motorOn with
  | true, false => motorStart cfg p
  | true, true => columnWrite cfg p (thermalPins value)
  | false, true => motorOff p
  | false, false => p

/-- A status read's count: the TG counter up, the watchdog down (R178, R179). -/
def countRead (p : Printer) : Printer :=
  { p with tgPulseCounter := p.tgPulseCounter + 1, watchdog := p.watchdog - 1 }

/-- This status read brings the watchdog to zero (R179). -/
def watchdogExpires (p : Printer) : Bool := p.motorOn && p.watchdog - 1 == 0

/-- What `readStatus()` leaves of the printer (R178, R179). -/
def statusAfter (p : Printer) : Printer :=
  if p.motorOn then
    if watchdogExpires p then motorOff (countRead p) else countRead p
  else p

/-- The byte `readStatus()` returns: HOME as the read leaves it, TG sampled before its count and 0 once the motor is
off (R178). -/
def statusRead (cfg : Config) (p : Printer) : Byte :=
  statusByte (statusAfter p).homePosition (p.motorOn && !watchdogExpires p && tgBit cfg p)

end Sys2Proof.Machine
end

