-- ==== Sys2Proof/Machine/Tape.lean ====
section
/-! DEFINITION. Tape playback and the edge log (R145 to R153). -/

namespace Sys2Proof.Machine

/-- The tape with new contents and the origin to be taken from the next read (R145). -/
def loadTapeBytes (tape : Tape) (bytes : List Byte) : Tape :=
  { tape with sourceBytes := bytes, originPending := true }

/-- The playback origin as a read stamped `t` leaves it: taken lazily from the first read (R146). -/
def takeOrigin (tape : Tape) (t : Nat) : Tape :=
  if tape.originPending then { tape with playbackOriginT := t, originPending := false } else tape

/-- The byte of a read `elapsed` T-states after the origin (R147). -/
def playbackByte (cfg : Config) (tape : Tape) (elapsed : Nat) : Byte :=
  if tape.sourceBytes.length ≤ floorDiv elapsed (byteT cfg) then 0xFF
  else levelByte (levelHigh cfg elapsed)

/-- The byte `readBit(T)` returns (R147). -/
def readBitByte (cfg : Config) (tape : Tape) (t : Nat) : Byte :=
  playbackByte cfg tape (t - (takeOrigin tape t).playbackOriginT)

/-- `recordEdge(value, T)`: the level is logged only if it differs from the log's last (R150). -/
def recordEdge (tape : Tape) (value : Byte) (t : Nat) : Tape :=
  if (tape.edgeLog.getLast?.map (·.level)) = some (outputLevel value) then tape
  else { tape with edgeLog := tape.edgeLog ++ [⟨outputLevel value, t⟩] }

/-- The tone line follows bit 7 of every port 0x02 write (R151). -/
def setTone (tape : Tape) (value : Byte) : Tape := { tape with toneLevel := outputLevel value }

/-- `START_RECORDING`: the edge log emptied (R153). -/
def startLog (tape : Tape) : Tape := { tape with edgeLog := [] }

end Sys2Proof.Machine
end

