-- ==== Sys2Proof/Machine/Bus.lean ====
section
/-! DEFINITION. The meanings of the bus operations: the routing of the I/O port dispatcher (R80 to R94). -/

namespace Sys2Proof.Machine

/-- A write no handler takes: logged and dropped (R80, R200). -/
def dropWrite (port value : Byte) (s : State) : State :=
  (s.logDiags [.unmappedWrite port value]).returns .nothing

/-- A read of a port with no read handler: 0xFF, silently (R88). -/
def readNoHandler (s : State) : State := s.returns (.byte Config.unmappedRead)

/-- `OUT.SEG` (R82). -/
def execOutSeg (value : Byte) (_t : Nat) (s : State) : Host.Outcome State Fault Refusal :=
  .next ((s.setDisp (writeSegments s.disp value)).returns .nothing)

/-- `OUT.DIG` (R83), refused by stamp test (b) of R61. -/
def execOutDig (value : Byte) (t : Nat) (s : State) : Host.Outcome State Fault Refusal :=
  if beforeLastEdge s.tape t then .refused .stampBeforeLastEdge
  else
    .next (((s.setDisp (selectDigit s.disp value)).setTape
      (recordEdge (setTone s.tape value) value t)).returns .nothing)

/-- `OUT.PRT` (R84). -/
def execOutPrt (value : Byte) (_t : Nat) (s : State) : Host.Outcome State Fault Refusal :=
  if s.cfg.printerPresent then .next ((s.setPrt (writeControl s.cfg s.prt value)).returns .nothing)
  else .next (dropWrite 0xCA value s)

/-- `IN.PRT` (R85): the printer status, or the keypad byte when the printer is not active. -/
def execInPrt (_t : Nat) (s : State) : Host.Outcome State Fault Refusal :=
  if printerActive s.cfg s.prt then
    .next ((s.setPrt (statusAfter s.prt)).returns (.byte (statusRead s.cfg s.prt)))
  else .next (readKeypad s)

/-- `IN.KEY` (R86). -/
def execInKey (_port : Byte) (_t : Nat) (s : State) : Host.Outcome State Fault Refusal :=
  .next (readKeypad s)

/-- `IN.TAPE` (R87), refused by stamp test (a) of R61. -/
def execInTape (_port : Byte) (t : Nat) (s : State) : Host.Outcome State Fault Refusal :=
  if beforeOrigin s.tape t then .refused .stampBeforeOrigin
  else .next ((s.setTape (takeOrigin s.tape t)).returns (.byte (readBitByte s.cfg s.tape t)))

/-- `IN.WO` at port 0x01 (R88). -/
def execInWoSeg (_t : Nat) (s : State) : Host.Outcome State Fault Refusal := .next (readNoHandler s)

/-- `IN.WO` at port 0x02 (R88). -/
def execInWoDig (_t : Nat) (s : State) : Host.Outcome State Fault Refusal := .next (readNoHandler s)

/-- `IN.WO` at port 0xCA (R88). -/
def execInWoPrt (_t : Nat) (s : State) : Host.Outcome State Fault Refusal := .next (readNoHandler s)

/-- `OUT.RO` at port 0xCB (R89). -/
def execOutRoPrt (value : Byte) (_t : Nat) (s : State) : Host.Outcome State Fault Refusal :=
  .next (dropWrite 0xCB value s)

/-- `OUT.RO` at `KEYPAD_PORT` (R89). -/
def execOutRoKey (port value : Byte) (_t : Nat) (s : State) : Host.Outcome State Fault Refusal :=
  .next (dropWrite port value s)

/-- `OUT.RO` at `TAPEIN_PORT` (R89). -/
def execOutRoTape (port value : Byte) (_t : Nat) (s : State) : Host.Outcome State Fault Refusal :=
  .next (dropWrite port value s)

/-- `IN.UNMAPPED` (R90). -/
def execInUnmapped (port : Byte) (_t : Nat) (s : State) : Host.Outcome State Fault Refusal :=
  .next (readNoHandler (s.logDiags [.unmappedRead port]))

/-- `OUT.UNMAPPED` (R91). -/
def execOutUnmapped (port value : Byte) (_t : Nat) (s : State) : Host.Outcome State Fault Refusal :=
  .next (dropWrite port value s)

end Sys2Proof.Machine
end

