-- ==== Sys2Proof/Machine/Hex.lean ====
section
/-! DEFINITION. The bytes an Intel-HEX text contributes to the tape (R143, R144). -/

namespace Sys2Proof.Machine

/-- The value of a hexadecimal digit, upper or lower case (R144). -/
def hexDigit (c : Char) : Option Nat :=
  let n := c.toNat
  if 48 ≤ n ∧ n ≤ 57 then some (n - 48)
  else if 65 ≤ n ∧ n ≤ 70 then some (n - 55)
  else if 97 ≤ n ∧ n ≤ 102 then some (n - 87)
  else none

/-- Pairs of hexadecimal digits, high digit first, as bytes; none if a character is no digit or one is left over
(R143). -/
def hexBytes : List Char → Option (List Byte)
  | [] => some []
  | [_] => none
  | h :: l :: rest =>
    match hexDigit h, hexDigit l, hexBytes rest with
    | some x, some y, some bs => some (BitVec.ofNat 8 (16 * x + y) :: bs)
    | _, _, _ => none

/-- A space, a tab or a carriage return (R144). -/
def isTrimmed (c : Char) : Bool := c == ' ' || c == '\t' || c == '\r'

/-- The line with spaces, tabs and carriage returns trimmed from both ends (R144). -/
def trimLine (l : List Char) : List Char :=
  ((l.dropWhile isTrimmed).reverse.dropWhile isTrimmed).reverse

/-- The text split at line feeds (R144). -/
def splitLines : List Char → List (List Char)
  | [] => [[]]
  | c :: cs =>
    if c = '\n' then [] :: splitLines cs
    else
      match splitLines cs with
      | [] => [[c]]
      | l :: ls => (c :: l) :: ls

/-- The payload of a data record of `ll` bytes, from the characters after the type field; none if they are too few or
one is no digit (R144). -/
def payloadBytes (ll : Nat) (rest : List Char) : Option (List Byte) :=
  match hexBytes (rest.take (2 * ll)) with
  | some bs => if bs.length = ll then some bs else none
  | none => none

/-- What a trimmed line contributes: its payload for a data record, nothing for an empty line or another record type,
none for a malformed line (R144). -/
def recordBytes (line : List Char) : Option (List Byte) :=
  match line with
  | [] => some []
  | c :: rest =>
    if c = ':' then
      match hexBytes (rest.take 8) with
      | some [ll, _, _, tt] => if tt = 0x00 then payloadBytes ll.toNat (rest.drop 8) else some []
      | _ => none
    else none

/-- The bytes and the diagnostics of a list of lines, the first of which has index `i` (R144). -/
def extractLines : Nat → List (List Char) → List Byte × List Diag
  | _, [] => ([], [])
  | i, l :: ls =>
    let (bytes, diags) := extractLines (i + 1) ls
    match recordBytes (trimLine l) with
    | some bs => (bs ++ bytes, diags)
    | none => (bytes, .badHexLine i :: diags)

/-- `extractData(hexText)`, with the diagnostics it logs (R144). -/
def extractData (hexText : List Char) : List Byte × List Diag := extractLines 0 (splitLines hexText)

end Sys2Proof.Machine
end

