-- ==== Sys2Proof/Machine/Wav.lean ====
section
/-! DEFINITION. WAV synthesis from the edge log (R155 to R158). -/

namespace Sys2Proof.Machine

/-- A 16-bit value, least significant byte first (R42, R157). -/
def le16 (v : BitVec 16) : List Byte := [v.extractLsb' 0 8, v.extractLsb' 8 8]

/-- A 32-bit value, least significant byte first (R42, R156). -/
def le32 (v : BitVec 32) : List Byte :=
  [v.extractLsb' 0 8, v.extractLsb' 8 8, v.extractLsb' 16 8, v.extractLsb' 24 8]

/-- `2 * total`, the length of the PCM bytes (R156). -/
def wavDataLen (total : Nat) : Nat := 2 * total

/-- The 44-byte RIFF/WAVE header, in file order (R156; log entry 25). -/
def wavHeader (total : Nat) : List Byte :=
  [0x52, 0x49, 0x46, 0x46]                                  -- "RIFF"
    ++ le32 (BitVec.ofNat 32 (36 + wavDataLen total))
    ++ [0x57, 0x41, 0x56, 0x45]                             -- "WAVE"
    ++ [0x66, 0x6D, 0x74, 0x20]                             -- "fmt "
    ++ le32 16
    ++ le16 1
    ++ le16 1
    ++ le32 (BitVec.ofNat 32 Config.sampleRate)
    ++ le32 (BitVec.ofNat 32 (2 * Config.sampleRate))
    ++ le16 2
    ++ le16 16
    ++ [0x64, 0x61, 0x74, 0x61]                             -- "data"
    ++ le32 (BitVec.ofNat 32 (wavDataLen total))

/-- The samples that fit a duration of `dt` T-states: `floor(dt * 44100 / CLOCK_HZ)` (R155). -/
def samplesIn (cfg : Config) (dt : Nat) : Nat := floorDiv (dt * Config.sampleRate) cfg.clockHz

/-- The sample value of a level (R155). -/
def sampleOf (level : Bool) : Sample := if level then Config.pcmHi else Config.pcmLo

/-- The sample count of the whole log: from its first entry's stamp to its last's (R155). -/
def wavTotal (cfg : Config) (log : List Edge) : Nat :=
  match log.head?, log.getLast? with
  | some first, some last => samplesIn cfg (last.t - first.t)
  | _, _ => 0

/-- The samples from the current position on, `room` of them: each pair of adjacent edges fills its span with the
earlier edge's level, clipped to the room left; what is never filled stays 0 (R155). -/
def fillSamples (cfg : Config) : List Edge → Nat → List Sample
  | e :: e' :: rest, room =>
    let n := min (samplesIn cfg (e'.t - e.t)) room
    List.replicate n (sampleOf e.level) ++ fillSamples cfg (e' :: rest) (room - n)
  | _, room => List.replicate room 0

/-- The PCM samples of a log (R155). -/
def wavSamples (cfg : Config) (log : List Edge) : List Sample := fillSamples cfg log (wavTotal cfg log)

/-- The file: header, then the samples (R155, R157). -/
def wavFile (cfg : Config) (log : List Edge) : List Byte :=
  wavHeader (wavTotal cfg log) ++ (wavSamples cfg log).flatMap le16

/-- The size field `36 + dataLen` fits 32 bits (R156). -/
def wavFits (cfg : Config) (log : List Edge) : Bool := decide (36 + wavDataLen (wavTotal cfg log) < 4294967296)

end Sys2Proof.Machine
end

