-- ==== Sys2Proof/Machine/HostOps.lean ====
section
/-! DEFINITION. The meanings of the host operations (R66, R68). -/

namespace Sys2Proof.Machine

/-- `RESET` (R230): every element at its value of R231; the configuration and the operations still to come are not
state of the block and stay. -/
def execReset (s : State) : Host.Outcome State Fault Refusal :=
  .next ((State.resetWith s.cfg).setInput s.input)

/-- `DISPLAY_CLEAR` (R106). -/
def execDisplayClear (s : State) : Host.Outcome State Fault Refusal :=
  .next ((s.setDisp (clearDisplay s.disp)).returns .nothing)

/-- `CLICK row, col` (R121): a position outside the 4 by 9 grid is logged and ignored. -/
def execClick (row col : Nat) (s : State) : Host.Outcome State Fault Refusal :=
  if h : row < 4 ∧ col < 9 then
    .next ((s.setKeyp (recordClick s.keyp ⟨row, h.1⟩ ⟨col, h.2⟩)).returns .nothing)
  else .next ((s.logDiags [.badClick row col]).returns .nothing)

/-- `LOAD_TAPE hexText` (R145). -/
def execLoadTape (hexText : List Char) (s : State) : Host.Outcome State Fault Refusal :=
  .next (((s.setTape (loadTapeBytes s.tape (extractData hexText).1)).logDiags
    (extractData hexText).2).returns .nothing)

/-- `START_RECORDING` (R153). -/
def execStartRecording (s : State) : Host.Outcome State Fault Refusal :=
  .next ((s.setTape (startLog s.tape)).returns .nothing)

/-- `SYNTH_WAV` (R155): no file from fewer than two edges; refused when the file's size field would not fit
(R156). -/
def execSynthWav (s : State) : Host.Outcome State Fault Refusal :=
  if s.tape.edgeLog.length < 2 then
    .next ((s.logDiags [.wavTooFewEdges s.tape.edgeLog.length]).returns (.file none))
  else if wavFits s.cfg s.tape.edgeLog then
    .next (s.returns (.file (some (wavFile s.cfg s.tape.edgeLog))))
  else .refused .wavTooLong

end Sys2Proof.Machine
end

