-- ==== Sys2Proof/Machine/Dispatch.lean ====
section
/-! DEFINITION. The dispatch of a decoded operation to its meaning (R66). -/

namespace Sys2Proof.Machine

-- One arm per row of the operation map (R66).
def exec (i : Instr) (s : State) : Host.Outcome State Fault Refusal :=
  match i with
  | .outSeg value t => Sys2Proof.Machine.execOutSeg value t s
  | .outDig value t => Sys2Proof.Machine.execOutDig value t s
  | .outPrt value t => Sys2Proof.Machine.execOutPrt value t s
  | .inPrt t => Sys2Proof.Machine.execInPrt t s
  | .inKey port t => Sys2Proof.Machine.execInKey port t s
  | .inTape port t => Sys2Proof.Machine.execInTape port t s
  | .inWoSeg t => Sys2Proof.Machine.execInWoSeg t s
  | .inWoDig t => Sys2Proof.Machine.execInWoDig t s
  | .inWoPrt t => Sys2Proof.Machine.execInWoPrt t s
  | .outRoPrt value t => Sys2Proof.Machine.execOutRoPrt value t s
  | .outRoKey port value t => Sys2Proof.Machine.execOutRoKey port value t s
  | .outRoTape port value t => Sys2Proof.Machine.execOutRoTape port value t s
  | .inUnmapped port t => Sys2Proof.Machine.execInUnmapped port t s
  | .outUnmapped port value t => Sys2Proof.Machine.execOutUnmapped port value t s
  | .reset => Sys2Proof.Machine.execReset s
  | .displayClear => Sys2Proof.Machine.execDisplayClear s
  | .click row col => Sys2Proof.Machine.execClick row col s
  | .loadTape hexText => Sys2Proof.Machine.execLoadTape hexText s
  | .startRecording => Sys2Proof.Machine.execStartRecording s
  | .synthWav => Sys2Proof.Machine.execSynthWav s

end Sys2Proof.Machine
end

