-- ==== Sys2Proof/Machine/Step.lean ====
section
/-! DEFINITION. One step of the block: the next operation issued is taken, decoded and executed (R50, R51). -/

namespace Sys2Proof.Machine

/-- One step. A configuration that breaks a constraint is refused (R5, X1). With no operation issued nothing happens:
the block starts no step of its own (R11, R212). -/
def step (s : State) : Host.Outcome State Fault Refusal :=
  if admitted s.cfg then
    match nextRequest s with
    | none => .next s
    | some (r, s') =>
      match decode s.cfg r with
      | .ok i => exec i s'
      | .error why => .refused (.rejected why)
  else .refused .badConfiguration

/-- `s` with the operation of an opcode-table word as the next one issued (log entry 4). -/
def State.withFetchWord (s : State) (nbits w : Nat) : State :=
  match requestOfWord nbits w with
  | some r => s.setInput (r :: s.input)
  | none => s

end Sys2Proof.Machine
end

