-- ==== Sys2Proof/Safety.lean ====
section
/-! DEFINITION. The terms claims are stated in: the invariants of rule R39, runs of several operations, the rational
numbers the configuration stands for, and Intel-HEX text written from records (R143). -/

namespace Sys2Proof

/-- The rational number a `Ratio` stands for (R5, D17). -/
def Ratio.toRat (q : Ratio) : Rat := (q.num : Rat) / (q.den : Rat)

end Sys2Proof

namespace Sys2Proof.Machine

/-- The invariants that hold between any two operations (R39, and R26 for the head phase). -/
structure Inv (s : State) : Prop where
  /-- R39 (a). -/
  motorIffRight : s.prt.motorOn = true ↔ s.prt.headPhase = .right
  /-- R39 (a). -/
  homeIffOff : s.prt.homePosition = !s.prt.motorOn
  /-- R26: `RETURN` is never the value between two operations. -/
  notReturning : s.prt.headPhase ≠ .ret
  /-- R39 (b). -/
  offIsFlushed : s.prt.motorOn = false → s.prt.columnBuffer = [] ∧ s.prt.skipFirst = false
  /-- R39 (c). -/
  watchdogRange : s.prt.motorOn = true → 1 ≤ s.prt.watchdog ∧ s.prt.watchdog ≤ s.cfg.watchdogReload
  /-- R39 (d). -/
  keyHoldRange : 0 ≤ s.keyp.keyHold ∧ s.keyp.keyHold ≤ 4
  /-- R39 (e). -/
  edgeLevels : s.tape.edgeLog.IsChain (fun e e' => e.level ≠ e'.level)
  /-- R39 (f). -/
  zcBound : ∀ k, (s.disp.seg.get k).zc ≤ 2
  /-- R39 (g). -/
  lineQueueZero : s.prt.lineQueueDepth = 0
  /-- R39 (h). -/
  edgeStamps : s.tape.edgeLog.IsChain (fun e e' => e.t ≤ e'.t)

/-- The paper's list is in its canonical form: strictly sorted (log entry 33). -/
abbrev paperWf (s : State) : Prop := s.prt.paper.Pairwise dotLt

/-- Operations executed one after another, stopping at the first that is not answered by a next state (R51). -/
def execAll : List Instr → State → Host.Outcome State Fault Refusal
  | [], s => .next s
  | i :: is, s =>
    match exec i s with
    | .next t => execAll is t
    | .fault f => .fault f
    | .refused r => .refused r

/-- The same operation with another T-state stamp. -/
def restamp (t : Nat) : Instr → Instr
  | .outSeg v _ => .outSeg v t
  | .outDig v _ => .outDig v t
  | .outPrt v _ => .outPrt v t
  | .inPrt _ => .inPrt t
  | .inKey p _ => .inKey p t
  | .inTape p _ => .inTape p t
  | .inWoSeg _ => .inWoSeg t
  | .inWoDig _ => .inWoDig t
  | .inWoPrt _ => .inWoPrt t
  | .outRoPrt v _ => .outRoPrt v t
  | .outRoKey p v _ => .outRoKey p v t
  | .outRoTape p v _ => .outRoTape p v t
  | .inUnmapped p _ => .inUnmapped p t
  | .outUnmapped p v _ => .outUnmapped p v t
  | .reset => .reset
  | .displayClear => .displayClear
  | .click row col => .click row col
  | .loadTape text => .loadTape text
  | .startRecording => .startRecording
  | .synthWav => .synthWav

/-- An upper-case hexadecimal digit (R143). -/
def hexChar (n : Nat) : Char := Char.ofNat (if n < 10 then 48 + n else 55 + n)

/-- A byte as two hexadecimal digits, high digit first (R143). -/
def byteChars (b : Byte) : List Char := [hexChar (b.toNat / 16), hexChar (b.toNat % 16)]

/-- A record `:LLAAAATTDD...DDCC` of type `tt` (R143). -/
def hexRecord (tt : Byte) (addr : BitVec 16) (bytes : List Byte) (checksum : Byte) : List Char :=
  ':' :: (byteChars (BitVec.ofNat 8 bytes.length) ++ byteChars (addr.extractLsb' 8 8)
    ++ byteChars (addr.extractLsb' 0 8) ++ byteChars tt ++ bytes.flatMap byteChars ++ byteChars checksum)

/-- A data record: a record of type 0 (R143). -/
def dataRecord (addr : BitVec 16) (bytes : List Byte) (checksum : Byte) : List Char :=
  hexRecord 0x00 addr bytes checksum

/-- Lines joined into one text by line feeds. -/
def joinLines : List (List Char) → List Char
  | [] => []
  | [l] => l
  | l :: l' :: ls => l ++ '\n' :: joinLines (l' :: ls)

end Sys2Proof.Machine
end

