-- ==== Sys2Proof/Certificates/Slice0/Obligations.lean ====
section
/-! DEFINITION. The statements for the provers. A frame is written as one equation: `t = { s with … }` says that the
next state `t` agrees with `s` in every element not named. -/

open Sys2Proof Sys2Proof.Machine

-- Steps

/-- A step runs the operation its next request decodes to, with that request taken (R50, R51). -/
def Obligations.StepRunsDecodedOperation : Prop :=
  ∀ (s : State) (r : Request) (rest : List Request) (i : Instr),
    admitted s.cfg = true → s.input = r :: rest → decode s.cfg r = .ok i →
      step s = exec i { s with input := rest }

/-- Outside that, a step is refused for a configuration that breaks a constraint (R5) and for a request the decoder
rejects (R68), and does nothing when no operation is issued (log entry 4). -/
def Obligations.StepRefusesOrIdles : Prop :=
  ∀ s : State,
    (admitted s.cfg = false → step s = .refused .badConfiguration) ∧
    (admitted s.cfg = true → s.input = [] → step s = .next s) ∧
    (∀ r rest why, admitted s.cfg = true → s.input = r :: rest → decode s.cfg r = .error why →
      step s = .refused (.rejected why))

/-- No operation faults, and the only refusals of an operation are the two stamp tests of R61 and the size test of R156;
each refuses exactly when its condition holds (R204; the stamp tests are the spec's decision D2, log entry 7). -/
def Obligations.OnlyThreeRefusals : Prop :=
  ∀ (i : Instr) (s : State),
    (∀ f, exec i s ≠ .fault f) ∧
    (∀ r, exec i s = .refused r ↔
      (r = .stampBeforeLastEdge ∧ ∃ v t e, i = .outDig v t ∧ s.tape.edgeLog.getLast? = some e ∧ t < e.t) ∨
      (r = .stampBeforeOrigin ∧ ∃ p t, i = .inTape p t ∧ s.tape.originPending = false ∧ t < s.tape.playbackOriginT) ∨
      (r = .wavTooLong ∧ i = .synthWav ∧ 2 ≤ s.tape.edgeLog.length ∧
        2 ^ 32 ≤ 36 + 2 * wavTotal s.cfg s.tape.edgeLog))

/-- A step never changes the configuration (R5; that it is held in State is log entry 1, DESIGN CHOICE), and leaves the
tail of the model's own list `input`: a step that is not idle takes one request, an idle one finds none, and no
operation, `RESET` included, touches the requests behind it (log entry 4, DESIGN CHOICE). -/
def Obligations.StepKeepsConfiguration : Prop :=
  ∀ s t : State, step s = .next t → t.cfg = s.cfg ∧ t.input = s.input.tail

/-- Apart from the two operations whose rules read it, an operation does the same whatever its stamp (R61, the
spec's decision D2, log entry 7). -/
def Obligations.StampReadByTwoOperations : Prop :=
  ∀ (i : Instr) (s : State) (T : Nat),
    (∀ v t, i ≠ .outDig v t) → (∀ p t, i ≠ .inTape p t) → exec (restamp T i) s = exec i s

-- Encoding

/-- Words written out from spec/95_test_vectors.md decode to the operations they stand for (R67; the packing
of the word is the spec's decision D34, log entry 6). -/
def Obligations.WrittenWordsDecode : Prop :=
  decodeTableWord 24 0x10138 = some (.outSeg 0x38 0) ∧
  decodeTableWord 24 0x10284 = some (.outDig 0x84 0) ∧
  decodeTableWord 24 0x1CABE = some (.outPrt 0xBE 0) ∧
  decodeTableWord 24 0x0CB00 = some (.inPrt 0) ∧
  decodeTableWord 24 0x00000 = some (.inKey 0x00 0) ∧
  decodeTableWord 24 0x00200 = some (.inWoDig 0) ∧
  decodeTableWord 24 0x1CB55 = some (.outRoPrt 0x55 0) ∧
  decodeTableWord 24 0x10001 = some (.outRoKey 0x00 0x01 0) ∧
  decodeTableWord 24 0x04000 = some (.inUnmapped 0x40 0) ∧
  decodeTableWord 24 0x17F12 = some (.outUnmapped 0x7F 0x12 0) ∧
  decodeTableWord 8 0b101 = some .synthWav ∧
  decodeTableWord 8 0b110 = none

/-- Decoding an encoded well-formed operation gives it back, for every operand, under every admitted configuration
(R66 to R68; the packing and the selectors are the spec's decision D34, log entry 6). -/
def Obligations.DecodeInvertsEncode : Prop :=
  ∀ (cfg : Config) (i : Instr), admitted cfg = true → i.wellFormed cfg = true → decode cfg (encode i) = .ok i

/-- Every bus request decodes to exactly one well-formed operation, and encoding that operation gives back the
direction, the masked port, on a write the masked value, and the stamp (R41, R66, R67; the masking is the spec's decision
D3, log entry 8, the packing D34, log entry 6). -/
def Obligations.EveryBusRequestDecodes : Prop :=
  ∀ (cfg : Config) (d : Bool) (p v t : Nat),
    ∃ i : Instr, decode cfg (.bus d p v t) = .ok i ∧ i.wellFormed cfg = true ∧
      encode i = .bus d (p % 256) (if d then v % 256 else 0) t

/-- The six host selectors name the six host operations, and the other two are rejected (R68, the spec's decision D34, log
entry 6). -/
def Obligations.HostSelectorsDecode : Prop :=
  ∀ (cfg : Config) (row col : Nat) (text : List Char),
    decode cfg (.host 0b000 row col text) = .ok .reset ∧
    decode cfg (.host 0b001 row col text) = .ok .displayClear ∧
    decode cfg (.host 0b010 row col text) = .ok (.click row col) ∧
    decode cfg (.host 0b011 row col text) = .ok (.loadTape text) ∧
    decode cfg (.host 0b100 row col text) = .ok .startRecording ∧
    decode cfg (.host 0b101 row col text) = .ok .synthWav ∧
    decode cfg (.host 0b110 row col text) = .error (.undefinedHostSelector 0b110) ∧
    decode cfg (.host 0b111 row col text) = .error (.undefinedHostSelector 0b111)

-- Configuration

/-- A configuration is admitted exactly when it meets every constraint of R5 (with R81 for the ports and R140 for
`HALF_2K`, written over the rationals; the port constraints are the spec's decisions D4 and D5, log entry 9). -/
def Obligations.AdmittedMeetsEveryConstraint : Prop :=
  ∀ cfg : Config, admitted cfg = true ↔
    (∀ p : Byte, cfg.keypadPort = some p ∨ cfg.tapeinPort = some p →
      p ≠ 0x01 ∧ p ≠ 0x02 ∧ p ≠ 0xCA ∧ p ≠ 0xCB) ∧
    (∀ p q : Byte, cfg.keypadPort = some p → cfg.tapeinPort = some q → p ≠ q) ∧
    (0 < cfg.clockHz.num ∧ 0 < cfg.clockHz.den) ∧
    (0 < cfg.avgBitT.num ∧ 0 < cfg.avgBitT.den) ∧
    1 ≤ ⌊cfg.clockHz.toRat / 4000 + 1 / 2⌋ ∧
    1 ≤ cfg.watchdogReload ∧ 1 ≤ cfg.tgPhaseWidth ∧ cfg.paperResetY ≤ cfg.paperMaxY

/-- `HALF_2K` and `HALF_1K` are the rounded half periods, `round(q) = floor(q + 1/2)` over the rationals (R140; the
rounding is the spec's decision D17, log entry 19). -/
def Obligations.HalfPeriodsAreRounded : Prop :=
  ∀ cfg : Config, 0 < cfg.clockHz.den →
    (half2k cfg : Int) = ⌊cfg.clockHz.toRat / 2000 / 2 + 1 / 2⌋ ∧
    (half1k cfg : Int) = ⌊cfg.clockHz.toRat / 1000 / 2 + 1 / 2⌋

-- Display

/-- The segment each bit of a segment-data byte names (R16). -/
def Obligations.SegmentBitTable : Prop :=
  segOfBit 0 = .e ∧ segOfBit 1 = .g ∧ segOfBit 2 = .f ∧ segOfBit 3 = .a ∧
  segOfBit 4 = .b ∧ segOfBit 5 = .c ∧ segOfBit 6 = .dp ∧ segOfBit 7 = .d ∧
  (∀ (v : Byte) (i : Fin 8), (segBits v).get (segOfBit i) = v.getLsbD i)

/-- The six one-hot digit-select values select slots 0 to 5, and any other value selects none (R102). -/
def Obligations.SlotTable : Prop :=
  slotOf 0x01 = some .s0 ∧ slotOf 0x02 = some .s1 ∧ slotOf 0x04 = some .s2 ∧
  slotOf 0x08 = some .s3 ∧ slotOf 0x10 = some .s4 ∧ slotOf 0x20 = some .s5 ∧
  (∀ ds : Strobe, ds ≠ 0x01 → ds ≠ 0x02 → ds ≠ 0x04 → ds ≠ 0x08 → ds ≠ 0x10 → ds ≠ 0x20 → slotOf ds = none)

/-- `OUT.SEG` completes in every state: each of the eight machines steps with its bit, the selected slot alone is
redrawn, and nothing else changes (R103; that the counters saturate, that the machines step with no slot selected and that
the latched glyphs are state is the spec's decision D11, R104, R105 and R107, log entry 14). -/
def Obligations.OutSegStepsEightMachines : Prop :=
  ∀ (v : Byte) (T : Nat) (s : State),
    ∃ t : State, exec (.outSeg v T) s = .next t ∧
      t = { s with disp := { s.disp with seg := t.disp.seg, glyph := t.disp.glyph }, result := .nothing } ∧
      (∀ i : Fin 8,
        (v.getLsbD i = true → t.disp.seg.get (segOfBit i) = ⟨true, 0⟩) ∧
        (v.getLsbD i = false →
          (t.disp.seg.get (segOfBit i)).zc = min ((s.disp.seg.get (segOfBit i)).zc + 1) 2 ∧
          (t.disp.seg.get (segOfBit i)).on =
            if (t.disp.seg.get (segOfBit i)).zc = 2 then false else (s.disp.seg.get (segOfBit i)).on)) ∧
      (∀ (slot : Slot) (k : Seg),
        (t.disp.glyph.get slot).get k =
          if slotOf s.disp.ds = some slot then (t.disp.seg.get k).on else (s.disp.glyph.get slot).get k)

/-- Turn-on is immediate and turn-off takes two writes: after two segment writes a segment is on exactly when one of the
two had its bit set, and the slot selected throughout shows just that (R108, derived by the spec from R103; that the
latched glyphs are state is its decision D11, log entry 14). -/
def Obligations.TwoWritesDecideSegments : Prop :=
  ∀ (v w : Byte) (T T' : Nat) (s : State),
    ∃ t : State, execAll [.outSeg v T, .outSeg w T'] s = .next t ∧
      (∀ i : Fin 8, (t.disp.seg.get (segOfBit i)).on = (v.getLsbD i || w.getLsbD i)) ∧
      (∀ (slot : Slot) (i : Fin 8), slotOf s.disp.ds = some slot →
        (t.disp.glyph.get slot).get (segOfBit i) = (v.getLsbD i || w.getLsbD i))

/-- A port 0x02 write stores the low six bits as the digit select and leaves the rest of the driver alone (R101); the
premise is that the write is not refused by its stamp. -/
def Obligations.StrobeStoresSixBits : Prop :=
  ∀ (v : Byte) (T : Nat) (s : State), (∀ e, s.tape.edgeLog.getLast? = some e → e.t ≤ T) →
    ∃ t : State, exec (.outDig v T) s = .next t ∧
      t.disp = { s.disp with ds := (v &&& 0x3F).setWidth 6 } ∧ t.diagLog = s.diagLog

/-- `OUT.DIG` completes when its stamp is not before the last logged edge: digit select, tone line and edge log follow
the byte, and nothing else changes (R83; that port 0x02 carries the tape and tone level is the spec's decision D7, log
entry 11; that an empty log takes every entry is D21, log entry 23). -/
def Obligations.OutDigSelectsAndRecords : Prop :=
  ∀ (v : Byte) (T : Nat) (s : State), (∀ e, s.tape.edgeLog.getLast? = some e → e.t ≤ T) →
    ∃ t : State, exec (.outDig v T) s = .next t ∧
      t = { s with
            disp := { s.disp with ds := t.disp.ds }
            tape := { s.tape with edgeLog := t.tape.edgeLog, toneLevel := v.getLsbD 7 }
            result := .nothing } ∧
      (∀ i < 6, t.disp.ds.getLsbD i = v.getLsbD i) ∧
      ((∃ e, s.tape.edgeLog.getLast? = some e ∧ e.level = v.getLsbD 7) → t.tape.edgeLog = s.tape.edgeLog) ∧
      ((∀ e, s.tape.edgeLog.getLast? = some e → e.level ≠ v.getLsbD 7) →
        t.tape.edgeLog = s.tape.edgeLog ++ [⟨v.getLsbD 7, T⟩])

/-- `OUT.DIG` stamped before the last logged edge is refused (R61 test (b), the spec's decision D2, log entry 7). -/
def Obligations.OutDigRefusedBeforeLastEdge : Prop :=
  ∀ (v : Byte) (T : Nat) (s : State) (e : Edge), s.tape.edgeLog.getLast? = some e → T < e.t →
    exec (.outDig v T) s = .refused .stampBeforeLastEdge

/-- `DISPLAY_CLEAR` turns off every segment and glyph and zeroes every counter, and keeps `ds` and everything else
(R106, the spec's decision D12, log entry 15). -/
def Obligations.DisplayClearDarkensAll : Prop :=
  ∀ s : State, ∃ t : State, exec .displayClear s = .next t ∧
    t = { s with disp := { s.disp with seg := t.disp.seg, glyph := t.disp.glyph }, result := .nothing } ∧
    (∀ k, t.disp.seg.get k = ⟨false, 0⟩) ∧ (∀ slot k, (t.disp.glyph.get slot).get k = false)

-- Keypad

/-- `CLICK` inside the 4 by 9 grid stores the position and sets the latch, keeping the countdown; outside it only logs
`BAD_CLICK` (R121; the bad position is the spec's decision D13, log entry 16). -/
def Obligations.ClickLatchesOrLogs : Prop :=
  ∀ (row col : Nat) (s : State),
    ((hr : row < 4) → (hc : col < 9) →
      exec (.click row col) s = .next { s with
        keyp := { s.keyp with keyRow := ⟨row, hr⟩, keyCol := ⟨col, hc⟩, keyLatch := true }
        result := .nothing }) ∧
    (4 ≤ row ∨ 9 ≤ col →
      exec (.click row col) s = .next { s with
        diagLog := s.diagLog ++ [.badClick row col], result := .nothing })

/-- A keypad read with no key latched, or with a strobe that does not hold every bit of the key's `pc`, returns 0xFF and
changes nothing (R123; R124 and R130, derived by the spec). -/
def Obligations.KeypadIdleReadChangesNothing : Prop :=
  ∀ (p : Byte) (T : Nat) (s : State) (loc : Fin 36), loc.val = s.keyp.keyRow.val * 9 + s.keyp.keyCol.val →
    s.keyp.keyLatch = false ∨ s.disp.ds.setWidth 8 &&& (s.cfg.keymap.get loc).pc ≠ (s.cfg.keymap.get loc).pc →
      exec (.inKey p T) s = .next { s with result := .byte 0xFF }

/-- A keypad read of a latched, matching key counts the hold down, releases and reloads it at the read that makes it
negative, and returns the key's `pa`, or 0xFF with the request of a special key (R123, R126 to R129; the reload is the
spec's decision D14, log entry 17, the shape of the requests D16, log entry 18). -/
def Obligations.KeypadMatchingReadActs : Prop :=
  ∀ (p : Byte) (T : Nat) (s : State) (loc : Fin 36), loc.val = s.keyp.keyRow.val * 9 + s.keyp.keyCol.val →
    s.keyp.keyLatch = true → s.disp.ds.setWidth 8 &&& (s.cfg.keymap.get loc).pc = (s.cfg.keymap.get loc).pc →
    ∃ t : State, exec (.inKey p T) s = .next t ∧
      t = { s with
            keyp := { s.keyp with keyLatch := t.keyp.keyLatch, keyHold := t.keyp.keyHold }
            cpuReq := t.cpuReq
            result := t.result } ∧
      (1 ≤ s.keyp.keyHold → t.keyp.keyLatch = true ∧ t.keyp.keyHold = s.keyp.keyHold - 1) ∧
      (s.keyp.keyHold ≤ 0 → t.keyp.keyLatch = false ∧ t.keyp.keyHold = 4) ∧
      (loc.val = 0 → t.cpuReq = s.cpuReq ++ [.resetPC] ∧ t.result = .byte 0xFF) ∧
      (loc.val = 18 → t.cpuReq = s.cpuReq ++ [.nmiAndEnable] ∧ t.result = .byte 0xFF) ∧
      (loc.val = 9 → t.cpuReq = s.cpuReq ++ [.int s.cfg.intData] ∧ t.result = .byte 0xFF) ∧
      (loc.val ≠ 0 → loc.val ≠ 18 → loc.val ≠ 9 →
        t.cpuReq = s.cpuReq ∧ t.result = .byte (s.cfg.keymap.get loc).pa)

/-- One click answers exactly five matching reads: after `n` of them the latch holds just when `n < 5`, and the key's
request, if it is a special one, has been made `min n 5` times (R125, the spec's decisions D14 and D15, log entry
17). -/
def Obligations.FiveMatchingReadsPerClick : Prop :=
  ∀ (p : Byte) (T n : Nat) (s : State), s.keyp.keyHold = 4 → s.keyp.keyLatch = true →
    s.disp.ds.setWidth 8 &&& (keyEntry s.cfg s.keyp).pc = (keyEntry s.cfg s.keyp).pc →
    ∃ t : State, execAll (List.replicate n (.inKey p T)) s = .next t ∧
      t.keyp.keyLatch = decide (n < 5) ∧
      t.keyp.keyHold = (if n < 5 then 4 - (n : Int) else 4) ∧
      t.cpuReq = s.cpuReq ++
        (List.replicate (min n 5) (keyRequest s.cfg (keyLoc s.keyp.keyRow s.keyp.keyCol)).toList).flatten

/-- Port 0xCB reads as the keypad when the printer is not active: no printer, or, under the `motor` reading, a motor
that is off (R85, R93, the spec's decision D6, log entry 10). -/
def Obligations.InactivePrinterReadsAsKeypad : Prop :=
  ∀ (p : Byte) (T T' : Nat) (s : State),
    s.cfg.printerPresent = false ∨ (s.cfg.printerActiveDef = .motor ∧ s.prt.motorOn = false) →
      exec (.inPrt T) s = exec (.inKey p T') s

-- Printer

/-- A control write with the motor bit set and the motor off starts the motor, first advancing the paper by one line
pitch, with the wrap, when the line has data; the column buffer is empty then (R39 clause (b)) (R171 to R173, R182; the
cursor and watchdog settings are the spec's decisions D25 and D28, log entries 27 and 30). -/
def Obligations.ControlWriteStartsMotor : Prop :=
  ∀ (v : Byte) (T : Nat) (s : State), s.cfg.printerPresent = true → v.getLsbD 7 = true → s.prt.motorOn = false →
    s.prt.columnBuffer = [] →
    ∃ t : State, exec (.outPrt v T) s = .next t ∧
      t = { s with
            prt := { s.prt with
              motorOn := true, headPhase := .right, tgPulseCounter := 0, homePosition := false, skipFirst := true
              cursorX := 0, watchdog := s.cfg.watchdogReload, lineHasData := false
              paper := t.prt.paper, paperY := t.prt.paperY }
            result := .nothing } ∧
      (s.prt.lineHasData = false → t.prt.paper = s.prt.paper ∧ t.prt.paperY = s.prt.paperY) ∧
      (s.prt.lineHasData = true → s.prt.paperY + s.cfg.headHeight + s.cfg.lineSpacing ≤ s.cfg.paperMaxY →
        t.prt.paper = s.prt.paper ∧ t.prt.paperY = s.prt.paperY + s.cfg.headHeight + s.cfg.lineSpacing) ∧
      (s.prt.lineHasData = true → s.cfg.paperMaxY < s.prt.paperY + s.cfg.headHeight + s.cfg.lineSpacing →
        t.prt.paper = [] ∧ t.prt.paperY = s.cfg.paperResetY)

/-- A control write with the motor bit set and the motor on drops the one skipped column or pushes its low seven bits,
and reloads the watchdog either way (R174; the spec's decisions D25 and D26, log entries 27 and 28). -/
def Obligations.ControlWritePushesColumn : Prop :=
  ∀ (v : Byte) (T : Nat) (s : State), s.cfg.printerPresent = true → v.getLsbD 7 = true → s.prt.motorOn = true →
    exec (.outPrt v T) s = .next { s with
      prt :=
        if s.prt.skipFirst then { s.prt with skipFirst := false, watchdog := s.cfg.watchdogReload }
        else { s.prt with
          columnBuffer := s.prt.columnBuffer ++ [(v &&& 0x7F).setWidth 7]
          lineHasData := true
          watchdog := s.cfg.watchdogReload }
      result := .nothing }

/-- A control write with the motor bit clear and the motor on stops it at home and prints the buffered columns: the
paper gains exactly the dot `(cursorX + c, paperY + (6 - b))` for each set bit `b` of each column `c` (R176, R180; the
spec's decisions D27 and D31, log entries 29 and 33). -/
def Obligations.ControlWriteStopsAndPrints : Prop :=
  ∀ (v : Byte) (T : Nat) (s : State), s.cfg.printerPresent = true → v.getLsbD 7 = false → s.prt.motorOn = true →
    ∃ t : State, exec (.outPrt v T) s = .next t ∧
      t = { s with
            prt := { s.prt with
              motorOn := false, headPhase := .idle, homePosition := true, skipFirst := false, columnBuffer := []
              cursorX := s.prt.cursorX + s.prt.columnBuffer.length, paper := t.prt.paper }
            result := .nothing } ∧
      (∀ d : Dot, d ∈ t.prt.paper ↔ d ∈ s.prt.paper ∨
        ∃ (c b : Nat) (col : Column), s.prt.columnBuffer[c]? = some col ∧ b ≤ 6 ∧ col.getLsbD b = true ∧
          d = ⟨s.prt.cursorX + c, s.prt.paperY + (6 - b)⟩)

/-- A control write with the motor bit clear while the motor is off changes nothing, and with no printer present any
write to its port is logged and dropped (R177 and R84, the spec's decisions D27 and D35, log entries 29 and 36). -/
def Obligations.ControlWriteWithoutEffect : Prop :=
  ∀ (v : Byte) (T : Nat) (s : State),
    (s.cfg.printerPresent = true → v.getLsbD 7 = false → s.prt.motorOn = false →
      exec (.outPrt v T) s = .next { s with result := .nothing }) ∧
    (s.cfg.printerPresent = false →
      exec (.outPrt v T) s = .next { s with
        diagLog := s.diagLog ++ [.unmappedWrite 0xCA v], result := .nothing })

/-- A status read of an active printer: at rest it changes nothing and shows HOME; with the motor on it counts TG up and
the watchdog down and shows TG as sampled before; the read that brings the watchdog to zero stops the motor, flushes,
and already shows HOME alone (R178, R179; the TG formula is the spec's decision D29, log entry 31, the watchdog test
D38, log entry 37). -/
def Obligations.StatusReadCountsAndStops : Prop :=
  ∀ (T : Nat) (s : State), s.cfg.printerPresent = true →
    s.cfg.printerActiveDef = .attached ∨ s.prt.motorOn = true →
    (s.prt.motorOn = false →
      exec (.inPrt T) s = .next { s with result := .byte (if s.prt.homePosition then 0x02 else 0x00) }) ∧
    (s.prt.motorOn = true → 2 ≤ s.prt.watchdog →
      exec (.inPrt T) s = .next { s with
        prt := { s.prt with tgPulseCounter := s.prt.tgPulseCounter + 1, watchdog := s.prt.watchdog - 1 }
        result := .byte ((if s.prt.homePosition then 0x02 else 0x00) |||
          (if s.prt.tgPulseCounter / s.cfg.tgPhaseWidth % 2 = 1 then 0x01 else 0x00)) }) ∧
    (s.prt.motorOn = true → s.prt.watchdog = 1 →
      exec (.inPrt T) s = .next { s with
        prt := { s.prt with
          tgPulseCounter := s.prt.tgPulseCounter + 1, watchdog := 0
          motorOn := false, headPhase := .idle, homePosition := true, skipFirst := false, columnBuffer := []
          cursorX := s.prt.cursorX + s.prt.columnBuffer.length
          paper := (flush s.prt).paper }
        result := .byte 0x02 })

/-- Status reads in a row stop the motor at the read that uses up the watchdog, flush there, and change nothing more of
the printer afterwards, under either reading of an inactive printer. The statement is about the printer alone: under the
`motor` reading the reads after the stop are keypad reads and act as such (R179, R85; the watchdog's value is the open
parameter of D38, log entry 37, the two readings are the spec's decision D6, log entry 10). -/
def Obligations.WatchdogStopsMotorOnce : Prop :=
  ∀ (T n : Nat) (s : State), s.cfg.printerPresent = true → s.prt.motorOn = true → 1 ≤ s.prt.watchdog →
    ∃ t : State, execAll (List.replicate n (.inPrt T)) s = .next t ∧
      (n < s.prt.watchdog →
        t.prt = { s.prt with
          tgPulseCounter := s.prt.tgPulseCounter + n, watchdog := s.prt.watchdog - n }) ∧
      (s.prt.watchdog ≤ n →
        t.prt = { flush s.prt with
          motorOn := false, headPhase := .idle, homePosition := true, skipFirst := false
          tgPulseCounter := s.prt.tgPulseCounter + s.prt.watchdog, watchdog := 0 })

/-- A whole pass, motor start, control writes, stop, prints exactly the written columns but the first, from X 0, and
leaves the mechanism at home (R181, derived by the spec from R172, R174, R176, R180; the skipped column is its decision
D25, log entry 27). -/
def Obligations.PassPrintsAllButFirstColumn : Prop :=
  ∀ (start stop : Byte) (writes : List Byte) (T : Nat) (s : State),
    s.cfg.printerPresent = true → s.prt.motorOn = false → s.prt.columnBuffer = [] → s.prt.lineHasData = false →
    start.getLsbD 7 = true → stop.getLsbD 7 = false → (∀ w ∈ writes, w.getLsbD 7 = true) →
    ∃ t : State,
      execAll (.outPrt start T :: (writes.map (fun w => Instr.outPrt w T) ++ [.outPrt stop T])) s = .next t ∧
      t.prt.motorOn = false ∧ t.prt.homePosition = true ∧ t.prt.columnBuffer = [] ∧
      t.prt.cursorX = writes.length - 1 ∧ t.prt.paperY = s.prt.paperY ∧
      (∀ d : Dot, d ∈ t.prt.paper ↔ d ∈ s.prt.paper ∨
        ∃ (c b : Nat) (w : Byte), writes[c + 1]? = some w ∧ b ≤ 6 ∧ w.getLsbD b = true ∧
          d = ⟨c, s.prt.paperY + (6 - b)⟩)

/-- A delivered status byte is 0x00, 0x01 or 0x02; HOME and TG are never set together (R178 corner case, derived by the
spec from the invariant that HOME is the motor's opposite, which is a premise here; the TG formula is its decision D29,
log entry 31). -/
def Obligations.StatusByteNeverThree : Prop :=
  ∀ (T : Nat) (s : State), s.cfg.printerPresent = true →
    s.cfg.printerActiveDef = .attached ∨ s.prt.motorOn = true → s.prt.homePosition = !s.prt.motorOn →
    ∃ (t : State) (b : Byte), exec (.inPrt T) s = .next t ∧ t.result = .byte b ∧
      (b = 0x00 ∨ b = 0x01 ∨ b = 0x02)

-- Tape, read side

/-- `LOAD_TAPE`, host selector 011, replaces the tape by the bytes of the text, logs its malformed lines, and has the
origin taken from the next read; nothing else changes (R145; the selector is the spec's decision D34, log entry 6, the
origin D20, log entry 22, the malformed lines D24, log entry 26). -/
def Obligations.LoadTapeReplacesTape : Prop :=
  ∀ (row col : Nat) (text : List Char) (s : State),
    decode s.cfg (.host 0b011 row col text) = .ok (.loadTape text) ∧
    exec (.loadTape text) s = .next { s with
      tape := { s.tape with sourceBytes := (extractData text).1, originPending := true }
      diagLog := s.diagLog ++ (extractData text).2
      result := .nothing }

/-- A text of data records puts exactly their payload bytes on the tape, in file order, whatever their addresses and
checksums, with no diagnostic (R143, R144). -/
def Obligations.DataRecordsComeInFileOrder : Prop :=
  ∀ recs : List (BitVec 16 × List Byte × Byte), (∀ r ∈ recs, r.2.1.length < 256) →
    extractData (joinLines (recs.map fun r => dataRecord r.1 r.2.1 r.2.2)) = (recs.flatMap fun r => r.2.1, [])

/-- Each line of a text contributes on its own, in order: a well-formed one its bytes, a malformed one the diagnostic with
its index, counted from 0 over all lines (R144; what is malformed is the spec's decision D24, log entry 26). -/
def Obligations.EachLineContributesAlone : Prop :=
  ∀ lines : List (List Char), lines ≠ [] → (∀ l ∈ lines, '\n' ∉ l) →
    (extractData (joinLines lines)).1 = lines.flatMap (fun l => (recordBytes (trimLine l)).getD []) ∧
    (extractData (joinLines lines)).2 =
      (lines.zipIdx.filter fun x => (recordBytes (trimLine x.1)).isNone).map fun x => .badHexLine x.2

/-- When a trimmed line is malformed: it is not empty and has no colon, or fewer than nine characters, or a character
of its length, address or type field is no digit; or it is of type 0 and its payload is too short or holds a character
that is no digit. A line with good fields contributes nothing when its type is not 0, whatever follows them, and its
payload when it is (R144, the spec's decision D24, log entry 26). -/
def Obligations.MalformedLineTest : Prop :=
  recordBytes [] = some [] ∧
  (∀ (c : Char) (rest : List Char), c ≠ ':' → recordBytes (c :: rest) = none) ∧
  (∀ rest : List Char,
    recordBytes (':' :: rest) = none ↔
      (rest.length < 8 ∨ ∃ c ∈ rest.take 8, hexDigit c = none) ∨
      (∃ ll : Byte, hexBytes (rest.take 2) = some [ll] ∧ hexBytes ((rest.drop 6).take 2) = some [0x00] ∧
        (rest.length < 8 + 2 * ll.toNat ∨ ∃ c ∈ (rest.drop 8).take (2 * ll.toNat), hexDigit c = none))) ∧
  (∀ (rest : List Char) (ll ah al tt : Byte), hexBytes (rest.take 8) = some [ll, ah, al, tt] →
    (tt ≠ 0x00 → recordBytes (':' :: rest) = some []) ∧
    (tt = 0x00 → ∀ bs, hexBytes ((rest.drop 8).take (2 * ll.toNat)) = some bs → bs.length = ll.toNat →
      recordBytes (':' :: rest) = some bs))

/-- In a text of records only those of type 0 put their payload on the tape, in file order; a record of another type
contributes nothing and is no diagnostic (R143, R144; what is malformed is the spec's decision D24, log entry 26). -/
def Obligations.OtherRecordTypesAreIgnored : Prop :=
  ∀ recs : List (Byte × BitVec 16 × List Byte × Byte), (∀ r ∈ recs, r.2.2.1.length < 256) →
    extractData (joinLines (recs.map fun r => hexRecord r.1 r.2.1 r.2.2.1 r.2.2.2)) =
      ((recs.filter fun r => r.1 == 0x00).flatMap fun r => r.2.2.1, [])

/-- The digits are 0 to 9, A to F and a to f and nothing else; a pair of them is one byte, high digit first; trimming takes
away spaces, tabs and carriage returns at both ends and nothing else (R143, R144, the spec's decision D24, log entry
26). -/
def Obligations.HexDigitsAndTrimming : Prop :=
  (∀ (c : Char) (n : Nat), hexDigit c = some n ↔
    ['0', '1', '2', '3', '4', '5', '6', '7', '8', '9', 'A', 'B', 'C', 'D', 'E', 'F'][n]? = some c ∨
    ['0', '1', '2', '3', '4', '5', '6', '7', '8', '9', 'a', 'b', 'c', 'd', 'e', 'f'][n]? = some c) ∧
  (∀ (h l : Char) (x y : Nat) (rest : List Char), hexDigit h = some x → hexDigit l = some y →
    hexBytes (h :: l :: rest) = (hexBytes rest).map (BitVec.ofNat 8 (16 * x + y) :: ·)) ∧
  (∀ pre l post : List Char, (∀ c ∈ pre ++ post, c = ' ' ∨ c = '\t' ∨ c = '\r') →
    (∀ c, l.head? = some c ∨ l.getLast? = some c → c ≠ ' ' ∧ c ≠ '\t' ∧ c ≠ '\r') →
    trimLine (pre ++ l ++ post) = l)

/-- `IN.TAPE` completes when its stamp is not before the origin: the origin is taken from the first read after a load,
the byte is 0xFF past the last byte's time and otherwise the level of the half-period count, with the floor quotients
taken over the rationals (R146, R147, R149; the polarity is the spec's decision D19, log entry 21, the lazy origin D20,
log entry 22, the exact quotients D17, log entry 19). -/
def Obligations.InTapeReadsLevel : Prop :=
  ∀ (p : Byte) (T : Nat) (s : State), admitted s.cfg = true →
    (s.tape.originPending = false → s.tape.playbackOriginT ≤ T) →
    ∃ (t : State) (b : Byte) (o : Nat), exec (.inTape p T) s = .next t ∧
      t = { s with tape := { s.tape with playbackOriginT := o, originPending := false }, result := .byte b } ∧
      o = (if s.tape.originPending then T else s.tape.playbackOriginT) ∧
      ((s.tape.sourceBytes.length : Int) ≤ ⌊((T - o : Nat) : Rat) / (s.cfg.avgBitT.toRat * 10)⌋ → b = 0xFF) ∧
      (⌊((T - o : Nat) : Rat) / (s.cfg.avgBitT.toRat * 10)⌋ < (s.tape.sourceBytes.length : Int) →
        b = if ⌊((T - o : Nat) : Rat) / (half2k s.cfg : Rat)⌋ % 2 = 0 then 0x80 else 0x00)

/-- The tape lasts exactly its number of bytes times `BYTE_T`: a read returns 0xFF just when that much has elapsed
since the origin (R148 clause (c), derived by the spec from R147; the exact quotients are its decision D17, log entry
19). -/
def Obligations.TapeLastsItsBytes : Prop :=
  ∀ (p : Byte) (T : Nat) (s : State), admitted s.cfg = true → s.tape.originPending = false →
    s.tape.playbackOriginT ≤ T →
    ∃ (t : State) (b : Byte), exec (.inTape p T) s = .next t ∧ t.result = .byte b ∧
      (b = 0xFF ↔
        (s.tape.sourceBytes.length : Rat) * (s.cfg.avgBitT.toRat * 10) ≤ ((T - s.tape.playbackOriginT : Nat) : Rat))

/-- `IN.TAPE` stamped before the playback origin is refused (R61 test (a), the spec's decision D2, log entry 7). -/
def Obligations.InTapeRefusedBeforeOrigin : Prop :=
  ∀ (p : Byte) (T : Nat) (s : State), s.tape.originPending = false → T < s.tape.playbackOriginT →
    exec (.inTape p T) s = .refused .stampBeforeOrigin

-- Tape, write side

/-- Port 0x02 writes made to an empty log with stamps that do not decrease leave one entry per run of equal levels, with
the level and stamp of the run's first write; their number is one more than the number of level changes (R152, derived
by the spec from R150; that an empty log takes the first write is its decision D21, log entry 23). -/
def Obligations.EdgeLogKeepsLevelChanges : Prop :=
  ∀ (w : Byte × Nat) (writes : List (Byte × Nat)) (s : State), s.tape.edgeLog = [] →
    (w :: writes).IsChain (fun x y => x.2 ≤ y.2) →
    ∃ t : State, execAll ((w :: writes).map fun x => Instr.outDig x.1 x.2) s = .next t ∧
      t.tape.edgeLog =
        ((w :: writes).map fun x => Edge.mk (x.1.getLsbD 7) x.2).destutter (fun e e' => e.level ≠ e'.level) ∧
      t.tape.edgeLog.length =
        1 + (((w :: writes).zip writes).filter fun x => x.1.1.getLsbD 7 != x.2.1.getLsbD 7).length

/-- `START_RECORDING`, host selector 100, empties the edge log and changes nothing else, so that the next port 0x02 write
is logged whatever its level (R153; that an empty log takes every level and that recording is always on are the spec's
decisions D21 and D22, log entry 23, that port 0x02 carries the tape level D7, log entry 11, the selector D34, log entry
6). -/
def Obligations.StartRecordingEmptiesLog : Prop :=
  ∀ (row col : Nat) (text : List Char) (v : Byte) (T : Nat) (s : State),
    decode s.cfg (.host 0b100 row col text) = .ok .startRecording ∧
    exec .startRecording s = .next { s with tape := { s.tape with edgeLog := [] }, result := .nothing } ∧
    ∃ t : State, execAll [.startRecording, .outDig v T] s = .next t ∧ t.tape.edgeLog = [⟨v.getLsbD 7, T⟩]

-- WAV

/-- `SYNTH_WAV` on fewer than two edges returns no file and only logs (R155). -/
def Obligations.WavNeedsTwoEdges : Prop :=
  ∀ s : State, s.tape.edgeLog.length < 2 →
    exec .synthWav s = .next { s with
      diagLog := s.diagLog ++ [.wavTooFewEdges s.tape.edgeLog.length], result := .file none }

/-- `SYNTH_WAV` on two or more edges completes with a file of 44 bytes and two for each of
`floor((tLast - t0) * 44100 / CLOCK_HZ)` samples, when its size field fits 32 bits; else it is refused. The header is, byte
for byte, `RIFF`, the size, the fixed bytes 8 to 39 of spec/95_test_vectors.md section 2.8 and the data length; the samples
of the log follow it (R155, R156, R157, R158; the header's bytes but for `RIFF`, `WAVE` and the value 44100 are general
knowledge, log entry 25, the arithmetic the spec's decision D23, log entry 24). -/
def Obligations.WavFileHasHeaderAndSamples : Prop :=
  ∀ (s : State) (e0 eLast : Edge) (total : Nat), admitted s.cfg = true → 2 ≤ s.tape.edgeLog.length →
    s.tape.edgeLog.head? = some e0 → s.tape.edgeLog.getLast? = some eLast →
    (total : Int) = ⌊((eLast.t - e0.t : Nat) : Rat) * 44100 / s.cfg.clockHz.toRat⌋ →
    (36 + 2 * total < 2 ^ 32 →
      ∃ bytes : List Byte, exec .synthWav s = .next { s with result := .file (some bytes) } ∧
        bytes.length = 44 + 2 * total ∧
        bytes.take 4 = [0x52, 0x49, 0x46, 0x46] ∧
        (bytes.drop 4).take 4 = le32 (BitVec.ofNat 32 (36 + 2 * total)) ∧
        (bytes.drop 8).take 32 =
          [0x57, 0x41, 0x56, 0x45, 0x66, 0x6D, 0x74, 0x20, 0x10, 0x00, 0x00, 0x00, 0x01, 0x00, 0x01, 0x00,
           0x44, 0xAC, 0x00, 0x00, 0x88, 0x58, 0x01, 0x00, 0x02, 0x00, 0x10, 0x00, 0x64, 0x61, 0x74, 0x61] ∧
        (bytes.drop 40).take 4 = le32 (BitVec.ofNat 32 (2 * total)) ∧
        bytes.drop 44 = (wavSamples s.cfg s.tape.edgeLog).flatMap le16) ∧
    (2 ^ 32 ≤ 36 + 2 * total → exec .synthWav s = .refused .wavTooLong)

/-- A log of exactly two edges gives a file all of whose samples carry the first edge's level: the bytes 80 3E for +16000
and 80 C1 for -16000 (R157; R158 clause (a), derived by the spec). -/
def Obligations.TwoEdgeWavHasOneLevel : Prop :=
  ∀ (s : State) (e0 e1 : Edge), s.tape.edgeLog = [e0, e1] →
    36 + 2 * wavTotal s.cfg [e0, e1] < 2 ^ 32 →
    ∃ bytes : List Byte, exec .synthWav s = .next { s with result := .file (some bytes) } ∧
      bytes.drop 44 =
        (List.replicate (wavTotal s.cfg [e0, e1]) (if e0.level then [0x80, 0x3E] else [0x80, 0xC1])).flatten

/-- Samples are low byte first: +16000 is 80 3E, -16000 is 80 C1, 0 is 00 00; after the 44 bytes of the header they
follow in order, `total` of them, two bytes each (R157). -/
def Obligations.SamplesAreLittleEndian : Prop :=
  le16 (sampleOf true) = [0x80, 0x3E] ∧ le16 (sampleOf false) = [0x80, 0xC1] ∧ le16 0 = [0x00, 0x00] ∧
  (sampleOf true).toInt = 16000 ∧ (sampleOf false).toInt = -16000 ∧
  (∀ (cfg : Config) (log : List Edge),
    (wavFile cfg log).drop 44 = (wavSamples cfg log).flatMap le16 ∧
    (wavSamples cfg log).length = wavTotal cfg log ∧
    ((wavFile cfg log).drop 44).length = 2 * wavTotal cfg log)

/-- On a log whose stamps do not decrease the clip never cuts: the samples are every pair's whole span in order, then at
most `n - 2` zeros (R155, R158 clause (e); the span rule is the spec's decision D23, log entry 24). -/
def Obligations.WavClipNeverCuts : Prop :=
  ∀ (cfg : Config) (log : List Edge), 0 < cfg.clockHz.num → 2 ≤ log.length →
    log.IsChain (fun e e' => e.t ≤ e'.t) →
    ∃ z : Nat, z ≤ log.length - 2 ∧
      wavSamples cfg log =
        ((log.zip log.tail).flatMap fun x => List.replicate (samplesIn cfg (x.2.t - x.1.t)) (sampleOf x.1.level))
          ++ List.replicate z 0

-- Dispatcher

/-- A read of a write-only port returns 0xFF, logs nothing and changes nothing (R88, the spec's decision D9, log entry
12). -/
def Obligations.WriteOnlyPortsReadFF : Prop :=
  ∀ (T : Nat) (s : State),
    exec (.inWoSeg T) s = .next { s with result := .byte 0xFF } ∧
    exec (.inWoDig T) s = .next { s with result := .byte 0xFF } ∧
    exec (.inWoPrt T) s = .next { s with result := .byte 0xFF }

/-- A write to a read-only port, 0xCB, `KEYPAD_PORT` or `TAPEIN_PORT`, decodes to its `OUT.RO`, is logged with its port
and value, and changes nothing else (R89). -/
def Obligations.ReadOnlyPortWritesOnlyLog : Prop :=
  ∀ (p v : Byte) (T : Nat) (s : State),
    decode s.cfg (.bus true 0xCB v.toNat T) = .ok (.outRoPrt v T) ∧
    (admitted s.cfg = true → s.cfg.keypadPort = some p →
      decode s.cfg (.bus true p.toNat v.toNat T) = .ok (.outRoKey p v T)) ∧
    (admitted s.cfg = true → s.cfg.tapeinPort = some p →
      decode s.cfg (.bus true p.toNat v.toNat T) = .ok (.outRoTape p v T)) ∧
    exec (.outRoPrt v T) s =
      .next { s with diagLog := s.diagLog ++ [.unmappedWrite 0xCB v], result := .nothing } ∧
    exec (.outRoKey p v T) s =
      .next { s with diagLog := s.diagLog ++ [.unmappedWrite p v], result := .nothing } ∧
    exec (.outRoTape p v T) s =
      .next { s with diagLog := s.diagLog ++ [.unmappedWrite p v], result := .nothing }

/-- A read of a port no other row names decodes to `IN.UNMAPPED`, is logged with its port, returns 0xFF and changes
nothing else (R90). -/
def Obligations.UnmappedReadsLogAndReturnFF : Prop :=
  ∀ (p : Byte) (v T : Nat) (s : State),
    (p ≠ 0x01 → p ≠ 0x02 → p ≠ 0xCA → p ≠ 0xCB → s.cfg.keypadPort ≠ some p → s.cfg.tapeinPort ≠ some p →
      decode s.cfg (.bus false p.toNat v T) = .ok (.inUnmapped p T)) ∧
    exec (.inUnmapped p T) s =
      .next { s with diagLog := s.diagLog ++ [.unmappedRead p], result := .byte 0xFF }

/-- A write to a port no other row names decodes to `OUT.UNMAPPED`, is logged with its port and value, and changes nothing
else (R91). -/
def Obligations.UnmappedWritesOnlyLog : Prop :=
  ∀ (p v : Byte) (T : Nat) (s : State),
    (p ≠ 0x01 → p ≠ 0x02 → p ≠ 0xCA → p ≠ 0xCB → s.cfg.keypadPort ≠ some p → s.cfg.tapeinPort ≠ some p →
      decode s.cfg (.bus true p.toNat v.toNat T) = .ok (.outUnmapped p v T)) ∧
    exec (.outUnmapped p v T) s =
      .next { s with diagLog := s.diagLog ++ [.unmappedWrite p v], result := .nothing }

-- Reset

/-- `RESET` completes in every state and puts every element of the block at its value of R231 (the spec's decision D32,
log entry 34); the configuration and the operations still to come stay. -/
def Obligations.ResetRestoresEveryElement : Prop :=
  ∀ s : State, ∃ t : State, exec .reset s = .next t ∧
    t.cfg = s.cfg ∧ t.input = s.input ∧ t.result = .nothing ∧
    t.disp.ds = 0 ∧ (∀ k, t.disp.seg.get k = ⟨false, 0⟩) ∧ (∀ slot k, (t.disp.glyph.get slot).get k = false) ∧
    t.keyp = ⟨0, 0, false, 4⟩ ∧
    t.tape.sourceBytes = [] ∧ t.tape.originPending = true ∧ t.tape.playbackOriginT = 0 ∧
    t.tape.edgeLog = [] ∧ t.tape.toneLevel = false ∧
    t.prt.motorOn = false ∧ t.prt.headPhase = .idle ∧ t.prt.tgPulseCounter = 0 ∧ t.prt.lineQueueDepth = 0 ∧
    t.prt.homePosition = true ∧ t.prt.columnBuffer = [] ∧ t.prt.paper = [] ∧
    t.prt.paperY = s.cfg.paperResetY ∧ t.prt.cursorX = 0 ∧ t.prt.lineHasData = false ∧
    t.prt.skipFirst = false ∧ t.prt.watchdog = 0 ∧
    t.cpuReq = [] ∧ t.diagLog = []

/-- The reset state of every configuration meets the invariants of R39 and has a canonical paper (R39, derived by the
spec; the reset values are its decision D32, log entry 34). -/
def Obligations.ResetMeetsInvariants : Prop :=
  (∀ cfg : Config, Inv (State.resetWith cfg) ∧ paperWf (State.resetWith cfg)) ∧ Inv State.reset

-- Whole machine

/-- Every step keeps the invariants of R39, from every state that meets them, reachable or not (R39, derived by the spec;
that `RETURN` never lasts is its decision D27, log entry 29). -/
def Obligations.StepKeepsInvariants : Prop :=
  ∀ s t : State, Inv s → step s = .next t → Inv t

/-- Every step keeps the paper's list in its canonical form (log entry 33, the model's own). -/
def Obligations.StepKeepsPaperCanonical : Prop :=
  ∀ s t : State, paperWf s → step s = .next t → paperWf t

/-- Each element is written only by the operations its rule of spec/10_state.md names, and by `RESET`. Of the printer's,
`lineQueueDepth` is written by none, `paperY` and `lineHasData` by control writes alone, and the other nine by control
writes and status reads (R13 to R34, R44, R182; that the queue's depth stays 0 is the spec's decision D30, log entry 32,
that the paper advances in control writes alone D28, log entry 30). -/
def Obligations.ElementsWrittenOnlyByTheirOperations : Prop :=
  ∀ (i : Instr) (s t : State), exec i s = .next t → i ≠ .reset →
    (t.disp.ds ≠ s.disp.ds → ∃ v T, i = .outDig v T) ∧
    (t.disp.seg ≠ s.disp.seg ∨ t.disp.glyph ≠ s.disp.glyph → (∃ v T, i = .outSeg v T) ∨ i = .displayClear) ∧
    (t.keyp.keyRow ≠ s.keyp.keyRow ∨ t.keyp.keyCol ≠ s.keyp.keyCol → ∃ row col, i = .click row col) ∧
    (t.keyp.keyLatch ≠ s.keyp.keyLatch →
      (∃ row col, i = .click row col) ∨ (∃ p T, i = .inKey p T) ∨ (∃ T, i = .inPrt T)) ∧
    (t.keyp.keyHold ≠ s.keyp.keyHold → (∃ p T, i = .inKey p T) ∨ (∃ T, i = .inPrt T)) ∧
    (t.tape.sourceBytes ≠ s.tape.sourceBytes → ∃ text, i = .loadTape text) ∧
    (t.tape.originPending ≠ s.tape.originPending → (∃ text, i = .loadTape text) ∨ ∃ p T, i = .inTape p T) ∧
    (t.tape.playbackOriginT ≠ s.tape.playbackOriginT → ∃ p T, i = .inTape p T) ∧
    (t.tape.edgeLog ≠ s.tape.edgeLog → (∃ v T, i = .outDig v T) ∨ i = .startRecording) ∧
    (t.tape.toneLevel ≠ s.tape.toneLevel → ∃ v T, i = .outDig v T) ∧
    t.prt.lineQueueDepth = s.prt.lineQueueDepth ∧
    (t.prt.paperY ≠ s.prt.paperY ∨ t.prt.lineHasData ≠ s.prt.lineHasData → ∃ v T, i = .outPrt v T) ∧
    (t.prt.motorOn ≠ s.prt.motorOn ∨ t.prt.headPhase ≠ s.prt.headPhase ∨
      t.prt.tgPulseCounter ≠ s.prt.tgPulseCounter ∨ t.prt.homePosition ≠ s.prt.homePosition ∨
      t.prt.columnBuffer ≠ s.prt.columnBuffer ∨ t.prt.paper ≠ s.prt.paper ∨ t.prt.cursorX ≠ s.prt.cursorX ∨
      t.prt.skipFirst ≠ s.prt.skipFirst ∨ t.prt.watchdog ≠ s.prt.watchdog →
      (∃ v T, i = .outPrt v T) ∨ ∃ T, i = .inPrt T) ∧
    (t.cpuReq ≠ s.cpuReq → (∃ p T, i = .inKey p T) ∨ ∃ T, i = .inPrt T)

/-- The diagnostic log is read by nothing: with another log the same operation has the same outcome, but for the log
(R35, R201; the diagnostics' codes are the spec's decision D9, log entry 12). -/
def Obligations.DiagnosticsAreNeverRead : Prop :=
  ∀ (i : Instr) (s : State) (log : List Diag),
    (∀ t, exec i s = .next t → ∃ log', exec i { s with diagLog := log } = .next { t with diagLog := log' }) ∧
    (∀ r, exec i s = .refused r → exec i { s with diagLog := log } = .refused r)

/-- Outside `RESET`, an operation makes at most one request to the CPU core, and never both makes one and logs a
diagnostic; the logs are append-only (R34, R35; R208, derived by the spec). -/
def Obligations.AtMostOneRequestPerOperation : Prop :=
  ∀ (i : Instr) (s t : State), exec i s = .next t → i ≠ .reset →
    (∃ log, t.diagLog = s.diagLog ++ log) ∧
    (t.cpuReq = s.cpuReq ∨ ∃ e, t.cpuReq = s.cpuReq ++ [e] ∧ t.diagLog = s.diagLog ∧ s.keyp.keyLatch = true)
end

