-- ==== Sys2Proof/Laws/Decode.lean ====
section
/-! SUPPORT. What the transaction word holds, and the masks (R41, R67). -/

namespace Sys2Proof

@[simp] theorem wordDir_transWord (d : Bool) (p v : Nat) : wordDir (transWord d p v) = d := by
  simp only [wordDir, transWord, BitVec.getLsbD_append]
  cases d <;> rfl

@[simp] theorem wordPort_transWord (d : Bool) (p v : Nat) : wordPort (transWord d p v) = mask8 p := by
  refine BitVec.eq_of_getLsbD_eq fun i hi => ?_
  simp only [wordPort, transWord, BitVec.getLsbD_extractLsb', BitVec.getLsbD_append]
  simp [hi, show ¬ (8 + i < 8) by omega, show 8 + i < 16 by omega]

@[simp] theorem wordValue_transWord (d : Bool) (p v : Nat) : wordValue (transWord d p v) = mask8 v := by
  refine BitVec.eq_of_getLsbD_eq fun i hi => ?_
  simp only [wordValue, transWord, BitVec.getLsbD_extractLsb', BitVec.getLsbD_append]
  simp [hi, show i < 16 by omega]

@[simp] theorem mask8_toNat (b : Byte) : mask8 b.toNat = b := by
  simp [mask8]

@[simp] theorem toNat_mask8 (x : Nat) : (mask8 x).toNat = x % 256 := by
  simp [mask8]

/-- The decoder on a bus request, in terms of the masked port and value. -/
theorem decode_bus (cfg : Config) (d : Bool) (p v t : Nat) :
    decode cfg (.bus d p v t) =
      .ok (if d then decodeWrite cfg (mask8 p) (mask8 v) t else decodeRead cfg (mask8 p) t) := by
  simp [decode, decodeWord]

/-- What a write decodes to, case by case. -/
theorem decodeWrite_cases (cfg : Config) (p v : Byte) (t : Nat) :
    (p = 0x01 ∧ decodeWrite cfg p v t = .outSeg v t) ∨
    (p = 0x02 ∧ decodeWrite cfg p v t = .outDig v t) ∨
    (p = 0xCA ∧ decodeWrite cfg p v t = .outPrt v t) ∨
    (p = 0xCB ∧ decodeWrite cfg p v t = .outRoPrt v t) ∨
    (cfg.keypadPort = some p ∧ decodeWrite cfg p v t = .outRoKey p v t) ∨
    (cfg.tapeinPort = some p ∧ decodeWrite cfg p v t = .outRoTape p v t) ∨
    (isUnmappedPort cfg p = true ∧ decodeWrite cfg p v t = .outUnmapped p v t) := by
  unfold decodeWrite
  split_ifs with h1 h2 h3 h4 h5 h6 <;> simp_all [isUnmappedPort, isFixedPort]

/-- What a read decodes to, case by case. -/
theorem decodeRead_cases (cfg : Config) (p : Byte) (t : Nat) :
    (p = 0xCB ∧ decodeRead cfg p t = .inPrt t) ∨
    (cfg.keypadPort = some p ∧ decodeRead cfg p t = .inKey p t) ∨
    (cfg.tapeinPort = some p ∧ decodeRead cfg p t = .inTape p t) ∨
    (p = 0x01 ∧ decodeRead cfg p t = .inWoSeg t) ∨
    (p = 0x02 ∧ decodeRead cfg p t = .inWoDig t) ∨
    (p = 0xCA ∧ decodeRead cfg p t = .inWoPrt t) ∨
    (isUnmappedPort cfg p = true ∧ decodeRead cfg p t = .inUnmapped p t) := by
  unfold decodeRead
  split_ifs with h1 h2 h3 h4 h5 h6 <;> simp_all [isUnmappedPort, isFixedPort]

end Sys2Proof
end

