-- ==== Sys2Proof/Laws/State.lean ====
section
/-! SUPPORT. One lemma per field per update of State: what each shared update leaves in each field. -/

namespace Sys2Proof.Machine

@[simp] theorem State.setDisp_cfg (s : State) (d : Display) : (s.setDisp d).cfg = s.cfg := rfl
@[simp] theorem State.setDisp_input (s : State) (d : Display) : (s.setDisp d).input = s.input := rfl
@[simp] theorem State.setDisp_result (s : State) (d : Display) : (s.setDisp d).result = s.result := rfl
@[simp] theorem State.setDisp_disp (s : State) (d : Display) : (s.setDisp d).disp = d := rfl
@[simp] theorem State.setDisp_keyp (s : State) (d : Display) : (s.setDisp d).keyp = s.keyp := rfl
@[simp] theorem State.setDisp_tape (s : State) (d : Display) : (s.setDisp d).tape = s.tape := rfl
@[simp] theorem State.setDisp_prt (s : State) (d : Display) : (s.setDisp d).prt = s.prt := rfl
@[simp] theorem State.setDisp_cpuReq (s : State) (d : Display) : (s.setDisp d).cpuReq = s.cpuReq := rfl
@[simp] theorem State.setDisp_diagLog (s : State) (d : Display) : (s.setDisp d).diagLog = s.diagLog := rfl

@[simp] theorem State.setKeyp_cfg (s : State) (k : Keypad) : (s.setKeyp k).cfg = s.cfg := rfl
@[simp] theorem State.setKeyp_input (s : State) (k : Keypad) : (s.setKeyp k).input = s.input := rfl
@[simp] theorem State.setKeyp_result (s : State) (k : Keypad) : (s.setKeyp k).result = s.result := rfl
@[simp] theorem State.setKeyp_disp (s : State) (k : Keypad) : (s.setKeyp k).disp = s.disp := rfl
@[simp] theorem State.setKeyp_keyp (s : State) (k : Keypad) : (s.setKeyp k).keyp = k := rfl
@[simp] theorem State.setKeyp_tape (s : State) (k : Keypad) : (s.setKeyp k).tape = s.tape := rfl
@[simp] theorem State.setKeyp_prt (s : State) (k : Keypad) : (s.setKeyp k).prt = s.prt := rfl
@[simp] theorem State.setKeyp_cpuReq (s : State) (k : Keypad) : (s.setKeyp k).cpuReq = s.cpuReq := rfl
@[simp] theorem State.setKeyp_diagLog (s : State) (k : Keypad) : (s.setKeyp k).diagLog = s.diagLog := rfl

@[simp] theorem State.setTape_cfg (s : State) (t : Tape) : (s.setTape t).cfg = s.cfg := rfl
@[simp] theorem State.setTape_input (s : State) (t : Tape) : (s.setTape t).input = s.input := rfl
@[simp] theorem State.setTape_result (s : State) (t : Tape) : (s.setTape t).result = s.result := rfl
@[simp] theorem State.setTape_disp (s : State) (t : Tape) : (s.setTape t).disp = s.disp := rfl
@[simp] theorem State.setTape_keyp (s : State) (t : Tape) : (s.setTape t).keyp = s.keyp := rfl
@[simp] theorem State.setTape_tape (s : State) (t : Tape) : (s.setTape t).tape = t := rfl
@[simp] theorem State.setTape_prt (s : State) (t : Tape) : (s.setTape t).prt = s.prt := rfl
@[simp] theorem State.setTape_cpuReq (s : State) (t : Tape) : (s.setTape t).cpuReq = s.cpuReq := rfl
@[simp] theorem State.setTape_diagLog (s : State) (t : Tape) : (s.setTape t).diagLog = s.diagLog := rfl

@[simp] theorem State.setPrt_cfg (s : State) (p : Printer) : (s.setPrt p).cfg = s.cfg := rfl
@[simp] theorem State.setPrt_input (s : State) (p : Printer) : (s.setPrt p).input = s.input := rfl
@[simp] theorem State.setPrt_result (s : State) (p : Printer) : (s.setPrt p).result = s.result := rfl
@[simp] theorem State.setPrt_disp (s : State) (p : Printer) : (s.setPrt p).disp = s.disp := rfl
@[simp] theorem State.setPrt_keyp (s : State) (p : Printer) : (s.setPrt p).keyp = s.keyp := rfl
@[simp] theorem State.setPrt_tape (s : State) (p : Printer) : (s.setPrt p).tape = s.tape := rfl
@[simp] theorem State.setPrt_prt (s : State) (p : Printer) : (s.setPrt p).prt = p := rfl
@[simp] theorem State.setPrt_cpuReq (s : State) (p : Printer) : (s.setPrt p).cpuReq = s.cpuReq := rfl
@[simp] theorem State.setPrt_diagLog (s : State) (p : Printer) : (s.setPrt p).diagLog = s.diagLog := rfl

@[simp] theorem State.returns_cfg (s : State) (r : Result) : (s.returns r).cfg = s.cfg := rfl
@[simp] theorem State.returns_input (s : State) (r : Result) : (s.returns r).input = s.input := rfl
@[simp] theorem State.returns_result (s : State) (r : Result) : (s.returns r).result = r := rfl
@[simp] theorem State.returns_disp (s : State) (r : Result) : (s.returns r).disp = s.disp := rfl
@[simp] theorem State.returns_keyp (s : State) (r : Result) : (s.returns r).keyp = s.keyp := rfl
@[simp] theorem State.returns_tape (s : State) (r : Result) : (s.returns r).tape = s.tape := rfl
@[simp] theorem State.returns_prt (s : State) (r : Result) : (s.returns r).prt = s.prt := rfl
@[simp] theorem State.returns_cpuReq (s : State) (r : Result) : (s.returns r).cpuReq = s.cpuReq := rfl
@[simp] theorem State.returns_diagLog (s : State) (r : Result) : (s.returns r).diagLog = s.diagLog := rfl

@[simp] theorem State.logDiags_cfg (s : State) (ds : List Diag) : (s.logDiags ds).cfg = s.cfg := rfl
@[simp] theorem State.logDiags_input (s : State) (ds : List Diag) : (s.logDiags ds).input = s.input := rfl
@[simp] theorem State.logDiags_result (s : State) (ds : List Diag) : (s.logDiags ds).result = s.result := rfl
@[simp] theorem State.logDiags_disp (s : State) (ds : List Diag) : (s.logDiags ds).disp = s.disp := rfl
@[simp] theorem State.logDiags_keyp (s : State) (ds : List Diag) : (s.logDiags ds).keyp = s.keyp := rfl
@[simp] theorem State.logDiags_tape (s : State) (ds : List Diag) : (s.logDiags ds).tape = s.tape := rfl
@[simp] theorem State.logDiags_prt (s : State) (ds : List Diag) : (s.logDiags ds).prt = s.prt := rfl
@[simp] theorem State.logDiags_cpuReq (s : State) (ds : List Diag) : (s.logDiags ds).cpuReq = s.cpuReq := rfl
@[simp] theorem State.logDiags_diagLog (s : State) (ds : List Diag) : (s.logDiags ds).diagLog = s.diagLog ++ ds := rfl

@[simp] theorem State.emitReq_cfg (s : State) (e : Option CpuReq) : (s.emitReq e).cfg = s.cfg := rfl
@[simp] theorem State.emitReq_input (s : State) (e : Option CpuReq) : (s.emitReq e).input = s.input := rfl
@[simp] theorem State.emitReq_result (s : State) (e : Option CpuReq) : (s.emitReq e).result = s.result := rfl
@[simp] theorem State.emitReq_disp (s : State) (e : Option CpuReq) : (s.emitReq e).disp = s.disp := rfl
@[simp] theorem State.emitReq_keyp (s : State) (e : Option CpuReq) : (s.emitReq e).keyp = s.keyp := rfl
@[simp] theorem State.emitReq_tape (s : State) (e : Option CpuReq) : (s.emitReq e).tape = s.tape := rfl
@[simp] theorem State.emitReq_prt (s : State) (e : Option CpuReq) : (s.emitReq e).prt = s.prt := rfl
@[simp] theorem State.emitReq_cpuReq (s : State) (e : Option CpuReq) : (s.emitReq e).cpuReq = s.cpuReq ++ e.toList := rfl
@[simp] theorem State.emitReq_diagLog (s : State) (e : Option CpuReq) : (s.emitReq e).diagLog = s.diagLog := rfl

@[simp] theorem State.setInput_cfg (s : State) (rs : List Request) : (s.setInput rs).cfg = s.cfg := rfl
@[simp] theorem State.setInput_input (s : State) (rs : List Request) : (s.setInput rs).input = rs := rfl
@[simp] theorem State.setInput_result (s : State) (rs : List Request) : (s.setInput rs).result = s.result := rfl
@[simp] theorem State.setInput_disp (s : State) (rs : List Request) : (s.setInput rs).disp = s.disp := rfl
@[simp] theorem State.setInput_keyp (s : State) (rs : List Request) : (s.setInput rs).keyp = s.keyp := rfl
@[simp] theorem State.setInput_tape (s : State) (rs : List Request) : (s.setInput rs).tape = s.tape := rfl
@[simp] theorem State.setInput_prt (s : State) (rs : List Request) : (s.setInput rs).prt = s.prt := rfl
@[simp] theorem State.setInput_cpuReq (s : State) (rs : List Request) : (s.setInput rs).cpuReq = s.cpuReq := rfl
@[simp] theorem State.setInput_diagLog (s : State) (rs : List Request) : (s.setInput rs).diagLog = s.diagLog := rfl

@[simp] theorem State.logDiags_nil (s : State) : s.logDiags [] = s := by
  simp [State.logDiags]

@[simp] theorem State.emitReq_none (s : State) : s.emitReq none = s := by
  simp [State.emitReq]

@[simp] theorem State.resetWith_cfg (cfg : Config) : (State.resetWith cfg).cfg = cfg := rfl
@[simp] theorem State.resetWith_input (cfg : Config) : (State.resetWith cfg).input = [] := rfl
@[simp] theorem State.resetWith_result (cfg : Config) : (State.resetWith cfg).result = .nothing := rfl
@[simp] theorem State.resetWith_disp (cfg : Config) : (State.resetWith cfg).disp = Display.reset := rfl
@[simp] theorem State.resetWith_keyp (cfg : Config) : (State.resetWith cfg).keyp = Keypad.reset := rfl
@[simp] theorem State.resetWith_tape (cfg : Config) : (State.resetWith cfg).tape = Tape.reset := rfl
@[simp] theorem State.resetWith_prt (cfg : Config) : (State.resetWith cfg).prt = Printer.reset cfg := rfl
@[simp] theorem State.resetWith_cpuReq (cfg : Config) : (State.resetWith cfg).cpuReq = [] := rfl
@[simp] theorem State.resetWith_diagLog (cfg : Config) : (State.resetWith cfg).diagLog = [] := rfl

/-- What taking the next request leaves: nothing without one, else the request and the rest. -/
theorem nextRequest_nil {s : State} (h : s.input = []) : nextRequest s = none := by
  simp [nextRequest, h]

theorem nextRequest_cons {s : State} {r : Request} {rest : List Request} (h : s.input = r :: rest) :
    nextRequest s = some (r, s.setInput rest) := by
  simp [nextRequest, h]

/-- A per-segment value mapped. -/
@[simp] theorem PerSeg.get_map {α β : Type} (h : α → β) (v : PerSeg α) (k : Seg) : (v.map h).get k = h (v.get k) := by
  cases k <;> rfl

@[simp] theorem PerSeg.get_all {α : Type} (x : α) (k : Seg) : (PerSeg.all x).get k = x := by
  cases k <;> rfl

@[simp] theorem PerSlot.get_all {α : Type} (x : α) (s : Slot) : (PerSlot.all x).get s = x := by
  cases s <;> rfl

/-- Reading a slot after writing one: the value written to that slot, any other untouched. -/
theorem PerSlot.get_set {α : Type} (v : PerSlot α) (s s' : Slot) (x : α) :
    (v.set s x).get s' = if s = s' then x else v.get s' := by
  cases s <;> cases s' <;> rfl

/-- Two per-segment values with the same entries are the same. -/
theorem PerSeg.ext_get {α : Type} {v w : PerSeg α} (h : ∀ k, v.get k = w.get k) : v = w := by
  cases v; cases w
  have := h .a; have := h .b; have := h .c; have := h .d
  have := h .e; have := h .f; have := h .g; have := h .dp
  simp_all [PerSeg.get]

end Sys2Proof.Machine
end

