-- ==== Sys2Proof/Laws/Display.lean ====
section
/-! SUPPORT. What the display driver's operations do (R100 to R109). -/

namespace Sys2Proof.Machine

/-- The segment machine of each bit steps with that bit (R16, R103). -/
theorem stepSegments_get (v : Byte) (g : PerSeg SegState) (k : Seg) :
    (stepSegments v g).get k = stepSegment ((segBits v).get k) (g.get k) := by
  cases k <;> rfl

/-- The bit of the segment a bit names is that bit (R16). -/
theorem segBits_segOfBit (v : Byte) (i : Fin 8) : (segBits v).get (segOfBit i) = v.getLsbD i := by
  fin_cases i <;> rfl

/-- Every segment is named by a bit (R16). -/
theorem segOfBit_surjective (k : Seg) : ∃ i, segOfBit i = k := by
  cases k
  · exact ⟨3, rfl⟩
  · exact ⟨4, rfl⟩
  · exact ⟨5, rfl⟩
  · exact ⟨7, rfl⟩
  · exact ⟨0, rfl⟩
  · exact ⟨2, rfl⟩
  · exact ⟨1, rfl⟩
  · exact ⟨6, rfl⟩

@[simp] theorem stepSegment_true (g : SegState) : stepSegment true g = ⟨true, 0⟩ := rfl

@[simp] theorem stepSegment_false_zc (g : SegState) : (stepSegment false g).zc = min (g.zc + 1) 2 := rfl

theorem stepSegment_false_on (g : SegState) :
    (stepSegment false g).on = if min (g.zc + 1) 2 = 2 then false else g.on := rfl

/-- The counter never passes 2 (R107). -/
theorem stepSegment_zc_le (b : Bool) (g : SegState) : (stepSegment b g).zc ≤ 2 := by
  cases b <;> simp [stepSegment, Config.segOffN]

/-- What the latch shows after an emission: the new values in the selected slot, the old ones elsewhere (R105). -/
theorem emitGlyph_get (ds : Strobe) (g : PerSeg SegState) (glyph : PerSlot (PerSeg Bool)) (s : Slot) (k : Seg) :
    ((emitGlyph ds g glyph).get s).get k =
      if slotOf ds = some s then (g.get k).on else (glyph.get s).get k := by
  unfold emitGlyph
  split
  next h => simp [h]
  next s' h =>
    rw [PerSlot.get_set, h]
    by_cases hs : s' = s
    · simp [hs]
    · simp [hs, show ¬ (some s' = some s) by simpa using hs]

@[simp] theorem writeSegments_ds (d : Display) (v : Byte) : (writeSegments d v).ds = d.ds := rfl
@[simp] theorem writeSegments_seg (d : Display) (v : Byte) : (writeSegments d v).seg = stepSegments v d.seg := rfl
@[simp] theorem writeSegments_glyph (d : Display) (v : Byte) :
    (writeSegments d v).glyph = emitGlyph d.ds (stepSegments v d.seg) d.glyph := rfl

@[simp] theorem clearDisplay_ds (d : Display) : (clearDisplay d).ds = d.ds := rfl
@[simp] theorem clearDisplay_seg (d : Display) : (clearDisplay d).seg = PerSeg.all ⟨false, 0⟩ := rfl
@[simp] theorem clearDisplay_glyph (d : Display) :
    (clearDisplay d).glyph = PerSlot.all (PerSeg.all false) := rfl

@[simp] theorem selectDigit_ds (d : Display) (v : Byte) : (selectDigit d v).ds = digitSelect v := rfl
@[simp] theorem selectDigit_seg (d : Display) (v : Byte) : (selectDigit d v).seg = d.seg := rfl
@[simp] theorem selectDigit_glyph (d : Display) (v : Byte) : (selectDigit d v).glyph = d.glyph := rfl

end Sys2Proof.Machine
end

