-- ==== Sys2Proof/Laws/Tape.lean ====
section
/-! SUPPORT. What the tape's operations do (R145 to R153). -/

namespace Sys2Proof.Machine

/-- A level equal to the last logged one is not logged again (R150). -/
theorem recordEdge_same {tape : Tape} {v : Byte} {t : Nat} {e : Edge} (h : tape.edgeLog.getLast? = some e)
    (hl : e.level = outputLevel v) : recordEdge tape v t = tape := by
  simp [recordEdge, h, hl]

/-- A level that differs from the last logged one, or a first one, is logged (R150). -/
theorem recordEdge_new {tape : Tape} {v : Byte} {t : Nat}
    (h : ∀ e, tape.edgeLog.getLast? = some e → e.level ≠ outputLevel v) :
    recordEdge tape v t = { tape with edgeLog := tape.edgeLog ++ [⟨outputLevel v, t⟩] } := by
  unfold recordEdge
  rw [if_neg]
  cases hl : tape.edgeLog.getLast? with
  | none => simp
  | some e => simpa using h e hl

@[simp] theorem setTone_edgeLog (tape : Tape) (v : Byte) : (setTone tape v).edgeLog = tape.edgeLog := rfl

/-- The tape after recording: only the edge log can differ (R150). -/
theorem recordEdge_eq (tape : Tape) (v : Byte) (t : Nat) :
    recordEdge tape v t = { tape with edgeLog := (recordEdge tape v t).edgeLog } := by
  unfold recordEdge; split <;> rfl

/-- The edge log after recording (R150). -/
theorem recordEdge_edgeLog (tape : Tape) (v : Byte) (t : Nat) :
    (recordEdge tape v t).edgeLog =
      if (tape.edgeLog.getLast?.map (·.level)) = some (outputLevel v) then tape.edgeLog
      else tape.edgeLog ++ [⟨outputLevel v, t⟩] := by
  unfold recordEdge; split <;> rfl

/-- Test (b) holds exactly when there is a last edge and the stamp is before it (R61). -/
theorem beforeLastEdge_iff (tape : Tape) (t : Nat) :
    beforeLastEdge tape t = true ↔ ∃ e, tape.edgeLog.getLast? = some e ∧ t < e.t := by
  unfold beforeLastEdge
  cases tape.edgeLog.getLast? <;> simp

/-- Test (a) holds exactly when the origin is taken and the stamp is before it (R61). -/
theorem beforeOrigin_iff (tape : Tape) (t : Nat) :
    beforeOrigin tape t = true ↔ tape.originPending = false ∧ t < tape.playbackOriginT := by
  simp [beforeOrigin]

/-- The origin as a read leaves it (R146). -/
theorem takeOrigin_eq (tape : Tape) (t : Nat) :
    takeOrigin tape t =
      { tape with
        playbackOriginT := if tape.originPending then t else tape.playbackOriginT
        originPending := false } := by
  unfold takeOrigin
  cases h : tape.originPending
  · cases tape; simp_all
  · rfl

end Sys2Proof.Machine
end

