-- ==== Sys2Proof/Laws/Exec.lean ====
section
/-! SUPPORT. What a step, a dispatched operation and the shared operations of the meanings can do, said once. -/

namespace Sys2Proof.Machine

/-- What a dropped write leaves (R89, R91). -/
theorem dropWrite_eq (port value : Byte) (s : State) :
    dropWrite port value s =
      { s with diagLog := s.diagLog ++ [.unmappedWrite port value], result := .nothing } := rfl

/-- What a read with no handler leaves (R88). -/
theorem readNoHandler_eq (s : State) : readNoHandler s = { s with result := .byte 0xFF } := rfl

/-- What a keypad read leaves (R123). -/
theorem readKeypad_eq (s : State) :
    readKeypad s =
      { s with
        keyp := keypadAfter s.cfg s.disp.ds s.keyp
        cpuReq := s.cpuReq ++ (keypadReq s.cfg s.disp.ds s.keyp).toList
        result := .byte (keypadByte s.cfg s.disp.ds s.keyp) } := rfl

/-- `OUT.DIG` answers a next state just when test (b) does not refuse it (R61, R83). -/
theorem execOutDig_next {v : Byte} {T : Nat} {s : State} (h : beforeLastEdge s.tape T = false) :
    execOutDig v T s =
      .next (((s.setDisp (selectDigit s.disp v)).setTape (recordEdge (setTone s.tape v) v T)).returns .nothing) := by
  simp [execOutDig, h]

theorem execOutDig_refused {v : Byte} {T : Nat} {s : State} (h : beforeLastEdge s.tape T = true) :
    execOutDig v T s = .refused .stampBeforeLastEdge := by
  simp [execOutDig, h]

/-- `IN.TAPE` answers a next state just when test (a) does not refuse it (R61, R87). -/
theorem execInTape_next {p : Byte} {T : Nat} {s : State} (h : beforeOrigin s.tape T = false) :
    execInTape p T s =
      .next ((s.setTape (takeOrigin s.tape T)).returns (.byte (readBitByte s.cfg s.tape T))) := by
  simp [execInTape, h]

theorem execInTape_refused {p : Byte} {T : Nat} {s : State} (h : beforeOrigin s.tape T = true) :
    execInTape p T s = .refused .stampBeforeOrigin := by
  simp [execInTape, h]

/-- The three ends of `SYNTH_WAV` (R155, R156). -/
theorem execSynthWav_cases (s : State) :
    (s.tape.edgeLog.length < 2 ∧
      execSynthWav s = .next ((s.logDiags [.wavTooFewEdges s.tape.edgeLog.length]).returns (.file none))) ∨
    (2 ≤ s.tape.edgeLog.length ∧ wavFits s.cfg s.tape.edgeLog = true ∧
      execSynthWav s = .next (s.returns (.file (some (wavFile s.cfg s.tape.edgeLog))))) ∨
    (2 ≤ s.tape.edgeLog.length ∧ wavFits s.cfg s.tape.edgeLog = false ∧
      execSynthWav s = .refused .wavTooLong) := by
  unfold execSynthWav
  by_cases h : s.tape.edgeLog.length < 2
  · exact .inl ⟨h, by simp [h]⟩
  · cases hf : wavFits s.cfg s.tape.edgeLog
    · exact .inr (.inr ⟨by omega, rfl, by simp [h]⟩)
    · exact .inr (.inl ⟨by omega, rfl, by simp [h]⟩)

/-- The two ends of `OUT.PRT` (R84). -/
theorem execOutPrt_cases (v : Byte) (T : Nat) (s : State) :
    (s.cfg.printerPresent = true ∧
      execOutPrt v T s = .next ((s.setPrt (writeControl s.cfg s.prt v)).returns .nothing)) ∨
    (s.cfg.printerPresent = false ∧ execOutPrt v T s = .next (dropWrite 0xCA v s)) := by
  unfold execOutPrt
  cases h : s.cfg.printerPresent <;> simp

/-- The two ends of `IN.PRT` (R85). -/
theorem execInPrt_cases (T : Nat) (s : State) :
    (printerActive s.cfg s.prt = true ∧
      execInPrt T s = .next ((s.setPrt (statusAfter s.prt)).returns (.byte (statusRead s.cfg s.prt)))) ∨
    (printerActive s.cfg s.prt = false ∧ execInPrt T s = .next (readKeypad s)) := by
  unfold execInPrt
  cases h : printerActive s.cfg s.prt <;> simp

/-- The two ends of `CLICK` (R121). -/
theorem execClick_cases (row col : Nat) (s : State) :
    (∃ (hr : row < 4) (hc : col < 9),
      execClick row col s = .next ((s.setKeyp (recordClick s.keyp ⟨row, hr⟩ ⟨col, hc⟩)).returns .nothing)) ∨
    (¬ (row < 4 ∧ col < 9) ∧
      execClick row col s = .next ((s.logDiags [.badClick row col]).returns .nothing)) := by
  unfold execClick
  by_cases h : row < 4 ∧ col < 9
  · exact .inl ⟨h.1, h.2, by simp [h]⟩
  · exact .inr ⟨h, by simp [h]⟩

/-- A step that answers a next state is idle, or is the meaning of the operation its first request decodes to, with
that request taken (R50). -/
theorem step_next_cases {s t : State} (h : step s = .next t) :
    admitted s.cfg = true ∧
      ((s.input = [] ∧ t = s) ∨
        ∃ r rest i, s.input = r :: rest ∧ decode s.cfg r = .ok i ∧ exec i (s.setInput rest) = .next t) := by
  unfold step at h
  split at h
  next ha =>
    refine ⟨ha, ?_⟩
    cases hi : s.input with
    | nil =>
      rw [nextRequest_nil hi] at h
      exact .inl ⟨rfl, by cases h; rfl⟩
    | cons r rest =>
      rw [nextRequest_cons hi] at h
      cases hd : decode s.cfg r with
      | ok i => exact .inr ⟨r, rest, i, rfl, hd, by simpa [hd] using h⟩
      | error why => simp [hd] at h
  next => cases h

end Sys2Proof.Machine
end

