-- ==== Sys2Proof/Laws/Hex.lean ====
section
/-! SUPPORT. Small facts of the Intel-HEX reader (R143, R144). -/

namespace Sys2Proof.Machine

/-- Digits joined read as their parts joined, when the first part has whole bytes (R143). -/
theorem hexBytes_append {xs : List Char} {bs : List Byte} (h : hexBytes xs = some bs) (ys : List Char) :
    hexBytes (xs ++ ys) = (hexBytes ys).map (bs ++ ·) := by
  fun_induction hexBytes xs generalizing bs with
  | case1 =>
    cases h
    cases h : hexBytes ys <;> simp [h]
  | case2 => cases h
  | case3 c l rest x y bs' hr hl hc ih =>
    cases h
    rw [List.cons_append, List.cons_append, hexBytes, hc, hl, ih hr]
    cases hexBytes ys <;> simp
  | case4 => cases h

/-- The number of bytes read is half the number of digits (R143). -/
theorem hexBytes_length {xs : List Char} {bs : List Byte} (h : hexBytes xs = some bs) :
    xs.length = 2 * bs.length := by
  fun_induction hexBytes xs generalizing bs with
  | case1 => cases h; rfl
  | case2 => cases h
  | case3 c l rest x y bs' hr hl hc ih =>
    cases h
    simp only [List.length_cons, ih hr]
    omega
  | case4 => cases h

/-- What is read is all digits (R143). -/
theorem hexBytes_digits {xs : List Char} {bs : List Byte} (h : hexBytes xs = some bs) :
    ∀ c ∈ xs, (hexDigit c).isSome = true := by
  fun_induction hexBytes xs generalizing bs with
  | case1 => simp
  | case2 => cases h
  | case3 c l rest x y bs' hr hl hc ih =>
    intro d hd
    rcases List.mem_cons.1 hd with rfl | hd
    · simp [hc]
    · rcases List.mem_cons.1 hd with rfl | hd
      · simp [hl]
      · exact ih hr d hd
  | case4 => cases h

/-- A whole number of pairs of digits reads as bytes (R143). -/
theorem hexBytes_of_digits (n : Nat) {xs : List Char} (hl : xs.length = 2 * n)
    (hd : ∀ c ∈ xs, (hexDigit c).isSome = true) : ∃ bs, hexBytes xs = some bs ∧ bs.length = n := by
  induction n generalizing xs with
  | zero =>
    obtain rfl : xs = [] := List.length_eq_zero_iff.1 (by omega)
    exact ⟨[], rfl, rfl⟩
  | succ n ih =>
    match xs, hl with
    | c :: l :: rest, hl =>
      obtain ⟨bs, hb, hn⟩ := ih (xs := rest) (by simp only [List.length_cons] at hl; omega)
        (fun d hd' => hd d (by simp [hd']))
      obtain ⟨x, hx⟩ := Option.isSome_iff_exists.1 (hd c (by simp))
      obtain ⟨y, hy⟩ := Option.isSome_iff_exists.1 (hd l (by simp))
      exact ⟨_, by rw [hexBytes, hx, hy, hb], by simp [hn]⟩
    | [], hl => simp at hl
    | [_], hl => simp only [List.length_singleton] at hl; omega

/-- What is trimmed (R144). -/
theorem isTrimmed_iff (c : Char) : isTrimmed c = true ↔ c = ' ' ∨ c = '\t' ∨ c = '\r' := by
  simp [isTrimmed, or_assoc]

/-- Trimmed characters in front go, and those behind another character stay (R144). -/
theorem dropWhile_trimmed {p l : List Char} (hp : ∀ c ∈ p, isTrimmed c = true)
    (hl : ∀ c, l.head? = some c → isTrimmed c = false) : (p ++ l).dropWhile isTrimmed = l := by
  induction p with
  | nil =>
    cases l with
    | nil => rfl
    | cons c cs => simp [hl c rfl]
  | cons c cs ih =>
    rw [List.cons_append, List.dropWhile_cons_of_pos (hp c (by simp))]
    exact ih fun x hx => hp x (by simp [hx])

/-- A text without a line feed is one line (R144). -/
theorem splitLines_of_noLF {l : List Char} (h : '\n' ∉ l) : splitLines l = [l] := by
  induction l with
  | nil => rfl
  | cons c cs ih =>
    simp only [List.mem_cons, not_or] at h
    rw [splitLines, if_neg (fun e => h.1 e.symm), ih h.2]

/-- A line, a line feed and a text: that line, then the text's lines (R144). -/
theorem splitLines_append {l : List Char} (h : '\n' ∉ l) (rest : List Char) :
    splitLines (l ++ '\n' :: rest) = l :: splitLines rest := by
  induction l with
  | nil => simp [splitLines]
  | cons c cs ih =>
    simp only [List.mem_cons, not_or] at h
    rw [List.cons_append, splitLines, if_neg (fun e => h.1 e.symm), ih h.2]

/-- The bytes of a list of lines, one more at the front (R144). -/
theorem extractLines_cons_fst (i : Nat) (l : List Char) (ls : List (List Char)) :
    (extractLines i (l :: ls)).1 = (recordBytes (trimLine l)).getD [] ++ (extractLines (i + 1) ls).1 := by
  rw [extractLines]
  cases recordBytes (trimLine l) <;> rfl

/-- The diagnostics of a list of lines, one more at the front (R144). -/
theorem extractLines_cons_snd (i : Nat) (l : List Char) (ls : List (List Char)) :
    (extractLines i (l :: ls)).2 =
      (if recordBytes (trimLine l) = none then [Diag.badHexLine i] else []) ++ (extractLines (i + 1) ls).2 := by
  rw [extractLines]
  cases recordBytes (trimLine l) <;> rfl

end Sys2Proof.Machine
end

