-- ==== Sys2Proof/Laws/Keypad.lean ====
section
/-! SUPPORT. What the keypad scanner's operations do (R120 to R131). -/

namespace Sys2Proof.Machine

@[simp] theorem holdStep_keyRow (k : Keypad) : (holdStep k).keyRow = k.keyRow := by
  unfold holdStep; split <;> rfl

@[simp] theorem holdStep_keyCol (k : Keypad) : (holdStep k).keyCol = k.keyCol := by
  unfold holdStep; split <;> rfl

/-- A countdown that stays non-negative keeps the latch (R125). -/
theorem holdStep_holding {k : Keypad} (h : 1 ≤ k.keyHold) : holdStep k = { k with keyHold := k.keyHold - 1 } := by
  simp [holdStep, show ¬ (k.keyHold - 1 < 0) by omega]

/-- A countdown that goes negative releases the key and is reloaded (R125). -/
theorem holdStep_releasing {k : Keypad} (h : k.keyHold ≤ 0) :
    holdStep k = { k with keyLatch := false, keyHold := 4 } := by
  have : k.keyHold - 1 < 0 := by omega
  simp [holdStep, this, Config.keyHoldInit]

/-- A read that does not match leaves the scanner alone, makes no request, and returns the idle bus (R124). -/
theorem keypad_unmatched {cfg : Config} {ds : Strobe} {k : Keypad} (h : keyMatches cfg ds k = false) :
    keypadAfter cfg ds k = k ∧ keypadReq cfg ds k = none ∧ keypadByte cfg ds k = 0xFF := by
  simp [keypadAfter, keypadReq, keypadByte, h]

/-- A read that matches counts the hold, makes the key's request if it has one, and returns the key's byte if it has
none (R123). -/
theorem keypad_matched {cfg : Config} {ds : Strobe} {k : Keypad} (h : keyMatches cfg ds k = true) :
    keypadAfter cfg ds k = holdStep k ∧
    keypadReq cfg ds k = keyRequest cfg (keyLoc k.keyRow k.keyCol) ∧
    keypadByte cfg ds k =
      if (keyRequest cfg (keyLoc k.keyRow k.keyCol)).isSome then 0xFF else (keyEntry cfg k).pa := by
  refine ⟨by simp [keypadAfter, h], by simp [keypadReq, h], ?_⟩
  simp only [keypadByte, h, if_true]
  cases keyRequest cfg (keyLoc k.keyRow k.keyCol) <;> rfl

theorem keyMatches_iff (cfg : Config) (ds : Strobe) (k : Keypad) :
    keyMatches cfg ds k = true ↔
      k.keyLatch = true ∧ ds.setWidth 8 &&& (keyEntry cfg k).pc = (keyEntry cfg k).pc := by
  simp [keyMatches, maskTest]

end Sys2Proof.Machine
end

