-- ==== Sys2Proof/Laws/PerInstr.lean ====
section
/-! SUPPORT. The family `MatchesRow`: the word an operation is encoded as is one its row of spec/opcode_table.json
matches (its `match` under its `mask`, or its host selector). -/

namespace Sys2Proof.Laws.MatchesRow

open Sys2Proof

/-- The row of spec/opcode_table.json: mask and match of a bus row, selector of a host row (R66, R68). -/
def tableRow : Instr → (TransWord × TransWord) ⊕ BitVec 3
  | .outSeg _ _ => .inl (0x1FF00, 0x10100)
  | .outDig _ _ => .inl (0x1FF00, 0x10200)
  | .outPrt _ _ => .inl (0x1FF00, 0x1CA00)
  | .inPrt _ => .inl (0x1FF00, 0x0CB00)
  | .inKey p _ => .inl (0x1FF00, p.setWidth 17 <<< 8)
  | .inTape p _ => .inl (0x1FF00, p.setWidth 17 <<< 8)
  | .inWoSeg _ => .inl (0x1FF00, 0x00100)
  | .inWoDig _ => .inl (0x1FF00, 0x00200)
  | .inWoPrt _ => .inl (0x1FF00, 0x0CA00)
  | .outRoPrt _ _ => .inl (0x1FF00, 0x1CB00)
  | .outRoKey p _ _ => .inl (0x1FF00, 0x10000 ||| p.setWidth 17 <<< 8)
  | .outRoTape p _ _ => .inl (0x1FF00, 0x10000 ||| p.setWidth 17 <<< 8)
  | .inUnmapped _ _ => .inl (0x10000, 0x00000)
  | .outUnmapped _ _ _ => .inl (0x10000, 0x10000)
  | .reset => .inr 0b000
  | .displayClear => .inr 0b001
  | .click _ _ => .inr 0b010
  | .loadTape _ => .inr 0b011
  | .startRecording => .inr 0b100
  | .synthWav => .inr 0b101

/-- The encoded word matches the operation's row. -/
def Statement (i : Instr) : Prop :=
  match encode i, tableRow i with
  | .bus d p v _, .inl (mask, pattern) => transWord d p v &&& mask = pattern
  | .host hhh _ _ _, .inr sel => hhh = sel
  | _, _ => False

/-- The named-port mask keeps the direction and the port and drops the value (R67). -/
theorem transWord_portMask (d : Bool) (p v : Nat) :
    transWord d p v &&& 0x1FF00 = (BitVec.ofBool d).setWidth 17 <<< 16 ||| (mask8 p).setWidth 17 <<< 8 := by
  have key : ∀ (d : Bool) (p v : BitVec 8),
      BitVec.ofBool d ++ (p ++ v) &&& (0x1FF00 : BitVec 17)
        = (BitVec.ofBool d).setWidth 17 <<< 16 ||| p.setWidth 17 <<< 8 := by
    intro d p v
    refine BitVec.eq_of_getLsbD_eq fun i hi => ?_
    simp only [BitVec.getLsbD_and, BitVec.getLsbD_append]
    interval_cases i <;> cases d <;> simp
  exact key d (mask8 p) (mask8 v)

/-- The catch-all mask keeps the direction alone (R67). -/
theorem transWord_dirMask (d : Bool) (p v : Nat) :
    transWord d p v &&& 0x10000 = (BitVec.ofBool d).setWidth 17 <<< 16 := by
  have key : ∀ (d : Bool) (p v : BitVec 8),
      BitVec.ofBool d ++ (p ++ v) &&& (0x10000 : BitVec 17) = (BitVec.ofBool d).setWidth 17 <<< 16 := by
    intro d p v
    refine BitVec.eq_of_getLsbD_eq fun i hi => ?_
    simp only [BitVec.getLsbD_and, BitVec.getLsbD_append]
    interval_cases i <;> cases d <;> simp
  exact key d (mask8 p) (mask8 v)

theorem outSeg (v : Byte) (t : Nat) : Statement (.outSeg v t) := (transWord_portMask true _ _).trans (by decide)
theorem outDig (v : Byte) (t : Nat) : Statement (.outDig v t) := (transWord_portMask true _ _).trans (by decide)
theorem outPrt (v : Byte) (t : Nat) : Statement (.outPrt v t) := (transWord_portMask true _ _).trans (by decide)
theorem inPrt (t : Nat) : Statement (.inPrt t) := (transWord_portMask false _ _).trans (by decide)
theorem inKey (p : Byte) (t : Nat) : Statement (.inKey p t) :=
  (transWord_portMask false _ _).trans (by simp)
theorem inTape (p : Byte) (t : Nat) : Statement (.inTape p t) :=
  (transWord_portMask false _ _).trans (by simp)
theorem inWoSeg (t : Nat) : Statement (.inWoSeg t) := (transWord_portMask false _ _).trans (by decide)
theorem inWoDig (t : Nat) : Statement (.inWoDig t) := (transWord_portMask false _ _).trans (by decide)
theorem inWoPrt (t : Nat) : Statement (.inWoPrt t) := (transWord_portMask false _ _).trans (by decide)
theorem outRoPrt (v : Byte) (t : Nat) : Statement (.outRoPrt v t) :=
  (transWord_portMask true _ _).trans (by decide)
theorem outRoKey (p v : Byte) (t : Nat) : Statement (.outRoKey p v t) :=
  (transWord_portMask true _ _).trans (by simp)
theorem outRoTape (p v : Byte) (t : Nat) : Statement (.outRoTape p v t) :=
  (transWord_portMask true _ _).trans (by simp)
theorem inUnmapped (p : Byte) (t : Nat) : Statement (.inUnmapped p t) :=
  (transWord_dirMask false _ _).trans (by decide)
theorem outUnmapped (p v : Byte) (t : Nat) : Statement (.outUnmapped p v t) :=
  (transWord_dirMask true _ _).trans (by decide)
theorem reset : Statement .reset := rfl
theorem displayClear : Statement .displayClear := rfl
theorem click (row col : Nat) : Statement (.click row col) := rfl
theorem loadTape (text : List Char) : Statement (.loadTape text) := rfl
theorem startRecording : Statement .startRecording := rfl
theorem synthWav : Statement .synthWav := rfl

end Sys2Proof.Laws.MatchesRow
end

