-- ==== Sys2Proof/Laws/Printer.lean ====
section
/-! SUPPORT. What the printer's operations do (R170 to R185), and that plotting keeps the paper's canonical form. -/

namespace Sys2Proof.Machine

/-- Adding a dot adds that dot and no other (R180). -/
theorem mem_insertDot (q d : Dot) (paper : List Dot) : d ∈ insertDot q paper ↔ d = q ∨ d ∈ paper := by
  induction paper with
  | nil => simp [insertDot]
  | cons p ps ih =>
    unfold insertDot
    split_ifs with h1 h2
    · subst h1; simp
    · simp
    · simp [ih]; tauto

theorem dotLt_trans {p q r : Dot} (h : dotLt p q) (h' : dotLt q r) : dotLt p r := by
  unfold dotLt at *; omega

theorem dotLt_of_not {p q : Dot} (h : ¬ q = p) (h' : ¬ dotLt q p) : dotLt p q := by
  have hne : q.x ≠ p.x ∨ q.y ≠ p.y := by
    by_contra hc
    push Not at hc
    exact h (by cases p; cases q; simp_all)
  unfold dotLt at *
  omega

/-- Adding a dot keeps the list strictly sorted. -/
theorem insertDot_sorted (q : Dot) {paper : List Dot} (h : paper.Pairwise dotLt) :
    (insertDot q paper).Pairwise dotLt := by
  induction paper with
  | nil => simp [insertDot]
  | cons p ps ih =>
    obtain ⟨hp, hps⟩ := List.pairwise_cons.1 h
    unfold insertDot
    split_ifs with h1 h2
    · exact h
    · refine List.pairwise_cons.2 ⟨fun d hd => ?_, h⟩
      rcases List.mem_cons.1 hd with rfl | hd
      · exact h2
      · exact dotLt_trans h2 (hp d hd)
    · refine List.pairwise_cons.2 ⟨fun d hd => ?_, ih hps⟩
      rcases (mem_insertDot q d ps).1 hd with rfl | hd
      · exact dotLt_of_not h1 h2
      · exact hp d hd

theorem plotPins_sorted (x y : Nat) (col : Column) (bs : List Nat) {paper : List Dot} (h : paper.Pairwise dotLt) :
    (plotPins x y col bs paper).Pairwise dotLt := by
  induction bs generalizing paper with
  | nil => exact h
  | cons b bs ih =>
    simp only [plotPins]
    split
    · exact ih (insertDot_sorted _ h)
    · exact ih h

theorem plotColumns_sorted (y : Nat) (cols : List Column) (x : Nat) {paper : List Dot} (h : paper.Pairwise dotLt) :
    (plotColumns y cols x paper).Pairwise dotLt := by
  induction cols generalizing x paper with
  | nil => exact h
  | cons col cols ih => exact ih (x + 1) (plotPins_sorted x y col _ h)

/-- The dots a column's pins add (R180). -/
theorem mem_plotPins (x y : Nat) (col : Column) (bs : List Nat) (paper : List Dot) (d : Dot) :
    d ∈ plotPins x y col bs paper ↔
      d ∈ paper ∨ ∃ b ∈ bs, col.getLsbD b = true ∧ d = ⟨x, y + (6 - b)⟩ := by
  induction bs generalizing paper with
  | nil => simp [plotPins]
  | cons b bs ih =>
    simp only [plotPins, ih]
    cases hb : col.getLsbD b
    · simp [hb]
    · simp [hb, mem_insertDot]; tauto

/-- The dots a list of columns adds (R180). -/
theorem mem_plotColumns (y : Nat) (cols : List Column) (x : Nat) (paper : List Dot) (d : Dot) :
    d ∈ plotColumns y cols x paper ↔
      d ∈ paper ∨ ∃ (c b : Nat) (col : Column), cols[c]? = some col ∧ b ≤ 6 ∧ col.getLsbD b = true ∧
        d = ⟨x + c, y + (6 - b)⟩ := by
  induction cols generalizing x paper with
  | nil => simp [plotColumns]
  | cons col cols ih =>
    simp only [plotColumns, ih, mem_plotPins]
    have hb : ∀ b, b ∈ [0, 1, 2, 3, 4, 5, 6] ↔ b ≤ 6 := by
      intro b; simp only [List.mem_cons, List.not_mem_nil, or_false]; omega
    constructor
    · rintro ((h | ⟨b, hb', hc, rfl⟩) | ⟨c, b, col', hc, hb', hd, rfl⟩)
      · exact .inl h
      · exact .inr ⟨0, b, col, rfl, (hb b).1 hb', hc, rfl⟩
      · exact .inr ⟨c + 1, b, col', by simpa using hc, hb', hd, by rw [show x + 1 + c = x + (c + 1) by omega]⟩
    · rintro (h | ⟨c, b, col', hc, hb', hd, rfl⟩)
      · exact .inl (.inl h)
      · cases c with
        | zero =>
          simp only [List.getElem?_cons_zero, Option.some.injEq] at hc
          subst hc
          exact .inl (.inr ⟨b, (hb b).2 hb', hd, rfl⟩)
        | succ c =>
          exact .inr ⟨c, b, col', by simpa using hc, hb', hd, by rw [show x + 1 + c = x + (c + 1) by omega]⟩

/-- The four cases of a control write (R171). -/
theorem writeControl_cases (cfg : Config) (p : Printer) (v : Byte) :
    (motorCommand v = true ∧ p.motorOn = false ∧ writeControl cfg p v = motorStart cfg p) ∨
    (motorCommand v = true ∧ p.motorOn = true ∧ writeControl cfg p v = columnWrite cfg p (thermalPins v)) ∨
    (motorCommand v = false ∧ p.motorOn = true ∧ writeControl cfg p v = motorOff p) ∨
    (motorCommand v = false ∧ p.motorOn = false ∧ writeControl cfg p v = p) := by
  unfold writeControl
  cases hm : motorCommand v <;> cases ho : p.motorOn <;> simp

/-- What motor-off leaves, field by field (R176). -/
theorem motorOff_eq (p : Printer) :
    motorOff p =
      { p with
        motorOn := false, headPhase := .idle, homePosition := true, skipFirst := false, columnBuffer := []
        cursorX := p.cursorX + p.columnBuffer.length
        paper := plotColumns p.paperY p.columnBuffer p.cursorX p.paper } := rfl

/-- The three cases of a status read (R178, R179). -/
theorem statusAfter_cases (p : Printer) :
    (p.motorOn = false ∧ statusAfter p = p) ∨
    (p.motorOn = true ∧ p.watchdog ≤ 1 ∧ statusAfter p = motorOff (countRead p)) ∨
    (p.motorOn = true ∧ 2 ≤ p.watchdog ∧ statusAfter p = countRead p) := by
  unfold statusAfter watchdogExpires
  cases hm : p.motorOn
  · simp
  · by_cases hw : p.watchdog - 1 = 0
    · simp [hw]; omega
    · simp [hw]; omega

/-- A status read leaves the line queue, the paper's Y and the line's flag alone (R178, R179). -/
theorem statusAfter_frame (p : Printer) :
    (statusAfter p).lineQueueDepth = p.lineQueueDepth ∧ (statusAfter p).paperY = p.paperY ∧
      (statusAfter p).lineHasData = p.lineHasData := by
  rcases statusAfter_cases p with ⟨-, e⟩ | ⟨-, -, e⟩ | ⟨-, -, e⟩ <;> rw [e] <;> exact ⟨rfl, rfl, rfl⟩

/-- A control write leaves the line queue alone (R28, R171). -/
@[simp] theorem writeControl_lineQueueDepth (cfg : Config) (p : Printer) (v : Byte) :
    (writeControl cfg p v).lineQueueDepth = p.lineQueueDepth := by
  rcases writeControl_cases cfg p v with ⟨-, -, e⟩ | ⟨-, -, e⟩ | ⟨-, -, e⟩ | ⟨-, -, e⟩ <;> rw [e]
  · unfold motorStart commitLine advancePaper
    split
    · simp only [flush]
      split <;> rfl
    · rfl
  · unfold columnWrite
    split <;> rfl
  · rfl

/-- Printing keeps the paper canonical. -/
theorem flush_sorted {p : Printer} (h : p.paper.Pairwise dotLt) : (flush p).paper.Pairwise dotLt :=
  plotColumns_sorted _ _ _ h

theorem motorOff_sorted {p : Printer} (h : p.paper.Pairwise dotLt) : (motorOff p).paper.Pairwise dotLt :=
  plotColumns_sorted _ _ _ h

theorem advancePaper_sorted (cfg : Config) {p : Printer} (h : p.paper.Pairwise dotLt) :
    (advancePaper cfg p).paper.Pairwise dotLt := by
  simp only [advancePaper]
  split
  · exact List.Pairwise.nil
  · exact h

theorem motorStart_sorted (cfg : Config) {p : Printer} (h : p.paper.Pairwise dotLt) :
    (motorStart cfg p).paper.Pairwise dotLt := by
  unfold motorStart
  split
  · exact flush_sorted (advancePaper_sorted cfg h)
  · exact h

theorem columnWrite_sorted (cfg : Config) {p : Printer} (pins : Column) (h : p.paper.Pairwise dotLt) :
    (columnWrite cfg p pins).paper.Pairwise dotLt := by
  unfold columnWrite
  split <;> exact h

theorem writeControl_sorted (cfg : Config) {p : Printer} (v : Byte) (h : p.paper.Pairwise dotLt) :
    (writeControl cfg p v).paper.Pairwise dotLt := by
  rcases writeControl_cases cfg p v with ⟨-, -, e⟩ | ⟨-, -, e⟩ | ⟨-, -, e⟩ | ⟨-, -, e⟩ <;> rw [e]
  · exact motorStart_sorted cfg h
  · exact columnWrite_sorted cfg _ h
  · exact motorOff_sorted h
  · exact h

theorem statusAfter_sorted {p : Printer} (h : p.paper.Pairwise dotLt) :
    (statusAfter p).paper.Pairwise dotLt := by
  rcases statusAfter_cases p with ⟨-, e⟩ | ⟨-, -, e⟩ | ⟨-, -, e⟩ <;> rw [e]
  · exact h
  · exact motorOff_sorted (p := countRead p) h
  · exact h

end Sys2Proof.Machine
end

