-- ==== Sys2Proof/Laws/Wav.lean ====
section
/-! SUPPORT. Lengths of the WAV file's parts (R155 to R157). -/

namespace Sys2Proof.Machine

@[simp] theorem le16_length (v : BitVec 16) : (le16 v).length = 2 := rfl
@[simp] theorem le32_length (v : BitVec 32) : (le32 v).length = 4 := rfl

/-- The header is 44 bytes (R156). -/
@[simp] theorem wavHeader_length (total : Nat) : (wavHeader total).length = 44 := rfl

/-- Filling `room` samples gives exactly that many (R155). -/
@[simp] theorem fillSamples_length (cfg : Config) (log : List Edge) (room : Nat) :
    (fillSamples cfg log room).length = room := by
  fun_induction fillSamples cfg log room with
  | case1 room e e' rest n ih => simp only [List.length_append, List.length_replicate, ih]; omega
  | case2 => simp

/-- Two bytes per sample (R157). -/
theorem flatMap_le16_length (l : List Sample) : (l.flatMap le16).length = 2 * l.length := by
  induction l with
  | nil => rfl
  | cons x xs ih => simp only [List.flatMap_cons, List.length_append, le16_length, ih, List.length_cons]; omega

/-- The file's length (R155, R156). -/
theorem wavFile_length (cfg : Config) (log : List Edge) :
    (wavFile cfg log).length = 44 + 2 * wavTotal cfg log := by
  rw [wavFile, List.length_append, wavHeader_length, flatMap_le16_length, wavSamples, fillSamples_length]

end Sys2Proof.Machine
end

