-- ==== Sys2Proof/Tests/Slice0.lean ====
section
/-! SUPPORT. The model's own tests: well-formedness, decoding, one-step checks with results taken from
spec/95_test_vectors.md (the vector is named at each), and a witness for every obligation that has hypotheses. -/

namespace Sys2Proof.Tests

open Sys2Proof.Machine

-- Helpers

/-- The illustrative key map `KM_T` of spec/95_test_vectors.md, section 0. -/
def kmT : Vector KeyEntry 36 :=
  ⟨⟨(List.finRange 36).map fun i =>
    if i = 12 then ⟨0x04, 0xFD⟩ else if i = 35 then ⟨0x20, 0xBF⟩ else if i = 5 then ⟨0x00, 0x7E⟩
    else if i = 7 then ⟨0x41, 0x11⟩ else if i = 20 then ⟨0x03, 0xEE⟩ else ⟨0x01, 0xFE⟩⟩, by simp⟩

/-- The vectors' configuration: the reference configuration with `KM_T`. -/
def cfgT : Config := { Config.reference with keymap := kmT }

/-- The same with `TAPEIN_PORT = some 0x03`. -/
def cfgTape : Config := { cfgT with tapeinPort := some 0x03 }

/-- The same with `CLOCK_HZ = 44100`, so that a sample lasts one T-state. -/
def cfgOne : Config := { cfgT with clockHz := ⟨44100, 1⟩ }

/-- The same with `PRINTER_ACTIVE_DEF = motor`. -/
def cfgMotor : Config := { cfgT with printerActiveDef := .motor }

/-- The vectors' start state. -/
def s0 : State := State.resetWith cfgT

/-- Reset with the digit select at `ds`. -/
def withDs (ds : Strobe) : State := { s0 with disp := { s0.disp with ds := ds } }

/-- A key latched at a position, the hold at `hold`, the digit select at `ds`. -/
def withKey (ds : Strobe) (row : Fin 4) (col : Fin 9) (hold : Int) : State :=
  { withDs ds with keyp := ⟨row, col, true, hold⟩ }

/-- Reset with an edge log. -/
def withLog (log : List Edge) : State := { s0 with tape := { s0.tape with edgeLog := log } }

/-- The printer with its motor on, the watchdog at `wd`, the skip flag and the buffer given. -/
def running (wd tg : Nat) (skip : Bool) (buf : List Column) : State :=
  { s0 with prt := { s0.prt with
      motorOn := true, headPhase := .right, homePosition := false, watchdog := wd, tgPulseCounter := tg,
      skipFirst := skip, columnBuffer := buf } }

/-- The printer at rest on a line with data at `y`. -/
def resting (y : Nat) : State :=
  { s0 with prt := { s0.prt with lineHasData := true, paperY := y, paper := [⟨0, 0⟩] } }

/-- A tape of `bytes` under `cfgTape`, its origin taken at `o`. -/
def playing (bytes : List Byte) (o : Nat) : State :=
  { State.resetWith cfgTape with
    tape := { Tape.reset with sourceBytes := bytes, originPending := false, playbackOriginT := o } }

/-- The next state, if there is one. -/
def nextOf (o : Host.Outcome State Fault Refusal) : Option State :=
  match o with
  | .next t => some t
  | .fault _ => none
  | .refused _ => none

/-- The refusal, if there is one. -/
def refusalOf (o : Host.Outcome State Fault Refusal) : Option Refusal :=
  match o with
  | .next _ => none
  | .fault _ => none
  | .refused r => some r

/-- What the next state of an operation shows. -/
def shows {α : Type} (i : Instr) (s : State) (f : State → α) : Option α := (nextOf (exec i s)).map f

/-- The segments of a slot that are lit, in the order of the bits of a segment-data byte. -/
def lit (t : State) (slot : Slot) : List Bool :=
  (List.finRange 8).map fun i => (t.disp.glyph.get slot).get (segOfBit i)

-- Well-formedness: each check passes a right port and refuses a wrong one (R66)

theorem test_wf_inKey : (Instr.inKey 0x00 0).wellFormed cfgT = true ∧ (Instr.inKey 0x01 0).wellFormed cfgT = false := by
  decide

theorem test_wf_inTape :
    (Instr.inTape 0x03 0).wellFormed cfgTape = true ∧ (Instr.inTape 0x03 0).wellFormed cfgT = false := by decide

theorem test_wf_outRoKey :
    (Instr.outRoKey 0x00 1 0).wellFormed cfgT = true ∧ (Instr.outRoKey 0xCB 1 0).wellFormed cfgT = false := by decide

theorem test_wf_outRoTape :
    (Instr.outRoTape 0x03 1 0).wellFormed cfgTape = true ∧ (Instr.outRoTape 0x04 1 0).wellFormed cfgTape = false := by
  decide

theorem test_wf_inUnmapped :
    (Instr.inUnmapped 0x40 0).wellFormed cfgT = true ∧ (Instr.inUnmapped 0xCA 0).wellFormed cfgT = false ∧
    (Instr.inUnmapped 0x00 0).wellFormed cfgT = false ∧ (Instr.inUnmapped 0x03 0).wellFormed cfgTape = false := by decide

theorem test_wf_outUnmapped :
    (Instr.outUnmapped 0x7F 0 0).wellFormed cfgT = true ∧ (Instr.outUnmapped 0x02 0 0).wellFormed cfgT = false ∧
    (Instr.outUnmapped 0x00 0 0).wellFormed cfgT = false ∧
    (Instr.outUnmapped 0x03 0 0).wellFormed cfgTape = false := by decide

/-- Configurations that break a constraint of R5 (V12, V44). -/
theorem test_admitted :
    admitted cfgT = true ∧ admitted cfgTape = true ∧ admitted { cfgT with keypadPort := some 0x02 } = false ∧
    admitted { cfgT with keypadPort := some 0x10, tapeinPort := some 0x10 } = false ∧
    admitted { cfgT with tapeinPort := some 0xCB } = false ∧ admitted { cfgT with clockHz := ⟨1999, 1⟩ } = false ∧
    admitted { cfgT with clockHz := ⟨2000, 1⟩ } = true ∧ admitted { cfgT with watchdogReload := 0 } = false ∧
    admitted { cfgT with tgPhaseWidth := 0 } = false ∧ admitted { cfgT with paperResetY := 1001 } = false ∧
    admitted { cfgT with avgBitT := ⟨1, 0⟩ } = false := by decide

-- Decoding: one word written out for every constructor, dir, port, value (R62 to R68)

theorem test_decode_outSeg : decodeWord cfgT 0b1_00000001_00111000 20 = .outSeg 0x38 20 := by decide
theorem test_decode_outDig : decodeWord cfgT 0b1_00000010_10000100 6 = .outDig 0x84 6 := by decide
theorem test_decode_outPrt : decodeWord cfgT 0b1_11001010_10111110 0 = .outPrt 0xBE 0 := by decide
theorem test_decode_inPrt : decodeWord cfgT 0b0_11001011_00000000 5 = .inPrt 5 := by decide
theorem test_decode_inKey : decodeWord cfgT 0b0_00000000_00000000 110 = .inKey 0x00 110 := by decide
theorem test_decode_inTape : decodeWord cfgTape 0b0_00000011_00000000 7000 = .inTape 0x03 7000 := by decide
theorem test_decode_inWoSeg : decodeWord cfgT 0b0_00000001_00000000 1 = .inWoSeg 1 := by decide
theorem test_decode_inWoDig : decodeWord cfgT 0b0_00000010_00000000 2 = .inWoDig 2 := by decide
theorem test_decode_inWoPrt : decodeWord cfgT 0b0_11001010_00000000 3 = .inWoPrt 3 := by decide
theorem test_decode_outRoPrt : decodeWord cfgT 0b1_11001011_01010101 0 = .outRoPrt 0x55 0 := by decide
theorem test_decode_outRoKey : decodeWord cfgT 0b1_00000000_00000001 0 = .outRoKey 0x00 0x01 0 := by decide
theorem test_decode_outRoTape : decodeWord cfgTape 0b1_00000011_10000001 4 = .outRoTape 0x03 0x81 4 := by decide
theorem test_decode_inUnmapped : decodeWord cfgT 0b0_01000000_00000000 0 = .inUnmapped 0x40 0 := by decide
theorem test_decode_outUnmapped : decodeWord cfgT 0b1_01111111_00010010 0 = .outUnmapped 0x7F 0x12 0 := by decide
theorem test_decode_reset : decodeTableWord 8 0b000 = some .reset := by decide
theorem test_decode_displayClear : decodeTableWord 8 0b001 = some .displayClear := by decide
theorem test_decode_click : decode cfgT (.host 0b010 1 3 []) = .ok (.click 1 3) := by decide
theorem test_decode_loadTape : decode cfgT (.host 0b011 0 0 [':']) = .ok (.loadTape [':']) := by decide
theorem test_decode_startRecording : decodeTableWord 8 0b100 = some .startRecording := by decide
theorem test_decode_synthWav : decodeTableWord 8 0b101 = some .synthWav := by decide

/-- Selectors that name nothing, and numbers that are no word (V83). -/
theorem test_decode_rejects :
    decodeTableWord 8 0b110 = none ∧ decodeTableWord 8 0b111 = none ∧ decodeTableWord 8 8 = none ∧
    decodeTableWord 24 0x20000 = none := by decide

/-- Ports and values are masked to 8 bits (V7). -/
theorem test_decode_masks :
    decode cfgT (.bus false 0x1CB 0 5) = .ok (.inPrt 5) ∧
    decode cfgT (.bus true 0x102 0x184 6) = .ok (.outDig 0x84 6) := by decide

-- Steps

/-- A word placed by `withFetchWord` is what the next step from reset runs. -/
theorem test_step_runs_word :
    (nextOf (step (State.reset.withFetchWord 24 0x10138))).map (fun t => (t.disp.seg.a.on, t.disp.seg.e.on, t.input)) =
      some (true, false, []) := by decide

theorem test_step_rejects :
    refusalOf (step (State.reset.withFetchWord 8 0b110)) = some (.rejected (.undefinedHostSelector 0b110)) := by decide

-- Display

/-- V13: bit 0 is `e`, bit 6 is `dp`, in the selected slot alone. -/
theorem test_outSeg_slot :
    shows (.outSeg 0x41 0) (withDs 0x20) (fun t => (t.disp.glyph.s5, lit t .s0)) =
      some (⟨false, false, false, false, true, false, false, true⟩, List.replicate 8 false) := by decide

/-- V14: the second clear write in a row turns a segment off. -/
theorem test_outSeg_hysteresis :
    (nextOf (execAll [.outSeg 0x08 0, .outSeg 0x00 0] (withDs 0x01))).map (fun t => (t.disp.seg.a, t.disp.glyph.s0.a)) =
      some (⟨true, 1⟩, true) ∧
    (nextOf (execAll [.outSeg 0x08 0, .outSeg 0x00 0, .outSeg 0x00 0] (withDs 0x01))).map
      (fun t => (t.disp.seg.a, t.disp.glyph.s0.a)) = some (⟨false, 2⟩, false) := by decide

/-- V8: bit 6 is ignored, bit 7 is logged. -/
theorem test_outDig_mask :
    shows (.outDig 0x41 9) s0 (fun t => (t.disp.ds, t.tape.toneLevel, t.tape.edgeLog)) =
      some (0x01, false, [⟨false, 9⟩]) := by decide

/-- V84: a stamp before the last logged edge is refused. -/
theorem test_outDig_refused :
    refusalOf (exec (.outDig 0x00 400) (withLog [⟨true, 500⟩])) = some .stampBeforeLastEdge := by decide

/-- V21: a clear keeps the digit select. -/
theorem test_displayClear :
    (nextOf (execAll [.outSeg 0xFF 0, .displayClear] (withDs 0x02))).map
      (fun t => (t.disp.ds, t.disp.seg.a, lit t .s1)) = some (0x02, ⟨false, 0⟩, List.replicate 8 false) := by decide

-- Keypad

/-- V26: the first and the fifth matching read. -/
theorem test_inKey_match :
    shows (.inKey 0x00 0) (withKey 0x04 1 3 4) (fun t => (t.result, t.keyp.keyHold, t.keyp.keyLatch)) =
      some (.byte 0xFD, 3, true) ∧
    shows (.inKey 0x00 0) (withKey 0x04 1 3 0) (fun t => (t.result, t.keyp.keyHold, t.keyp.keyLatch)) =
      some (.byte 0xFD, 4, false) := by decide

/-- V28, V30, V29: the three special keys. -/
theorem test_inKey_special :
    shows (.inKey 0x00 0) (withKey 0x01 0 0 4) (fun t => (t.result, t.cpuReq)) = some (.byte 0xFF, [.resetPC]) ∧
    shows (.inKey 0x00 0) (withKey 0x01 2 0 4) (fun t => (t.result, t.cpuReq)) = some (.byte 0xFF, [.nmiAndEnable]) ∧
    shows (.inKey 0x00 0) (withKey 0x01 1 0 4) (fun t => (t.result, t.cpuReq)) =
      some (.byte 0xFF, [.int 0xFF]) := by decide

/-- V34: clicks outside the grid. -/
theorem test_click_bad :
    shows (.click 4 0) s0 (fun t => (t.keyp.keyLatch, t.diagLog)) = some (false, [.badClick 4 0]) ∧
    shows (.click 0 9) s0 (fun t => (t.keyp.keyLatch, t.diagLog)) = some (false, [.badClick 0 9]) := by decide

/-- V37: the corner key. -/
theorem test_click_corner :
    shows (.click 3 8) s0 (fun t => (t.keyp, keyLoc t.keyp.keyRow t.keyp.keyCol)) =
      some (⟨3, 8, true, 4⟩, 35) := by decide

-- Printer

/-- V67: motor start, and the stop that prints pins 0 and 6. -/
theorem test_outPrt_start :
    shows (.outPrt 0xFF 0) s0 (fun t => (t.prt.motorOn, t.prt.skipFirst, t.prt.watchdog, t.prt.columnBuffer)) =
      some (true, true, 1000, []) := by decide

theorem test_outPrt_stop :
    shows (.outPrt 0x00 0) (running 1000 0 false [0x41])
      (fun t => (t.prt.motorOn, t.prt.homePosition, t.prt.cursorX, t.prt.paper)) =
      some (false, true, 1, [⟨0, 0⟩, ⟨0, 6⟩]) := by decide

/-- V69: TG is sampled before the count. -/
theorem test_inPrt_tg :
    shows (.inPrt 0) (running 998 2 false []) (fun t => (t.result, t.prt.tgPulseCounter, t.prt.watchdog)) =
      some (.byte 0x01, 3, 997) := by decide

/-- V72: the read that uses up the watchdog stops the motor. -/
theorem test_inPrt_watchdog :
    shows (.inPrt 0) (running 1 3 true []) (fun t => (t.result, t.prt.motorOn)) = some (.byte 0x02, false) := by decide

-- Tape

/-- V49: the reads at 7448 and 221920. -/
theorem test_inTape_level :
    shows (.inTape 0x03 7448) (playing [0xAA, 0xBB] 7000) (·.result) = some (.byte 0x00) ∧
    shows (.inTape 0x03 221920) (playing [0xAA, 0xBB] 7000) (·.result) = some (.byte 0xFF) := by decide

/-- V53a: a stamp before the origin is refused. -/
theorem test_inTape_refused :
    refusalOf (exec (.inTape 0x03 6999) (playing [0xAA, 0xBB] 7000)) = some .stampBeforeOrigin := by decide

/-- V47, its first three lines: junk, a short payload, a record without checksum. -/
theorem test_loadTape_lines :
    shows (.loadTape ['j', '\n', ':', '0', '2', '0', '0', '0', '0', '0', '0', 'A', 'A', '\n',
        ':', '0', '1', '0', '0', '0', '0', '0', '0', '5', '5']) s0
      (fun t => (t.tape.sourceBytes, t.tape.originPending, t.diagLog)) =
      some ([0x55], true, [.badHexLine 0, .badHexLine 1]) := by decide

/-- V46: a record of another type and a carriage return. -/
theorem test_loadTape_types :
    shows (.loadTape [':', '0', '0', '0', '0', '0', '0', '0', '1', 'F', 'F', '\r', '\n', '\n',
        ':', '0', '1', '0', '0', '1', '0', '0', '0', '7', 'f', '7', '0', '\r']) s0
      (fun t => (t.tape.sourceBytes, t.diagLog)) = some ([0x7F], []) := by decide

/-- V56: the log is emptied, the tone line kept. -/
theorem test_startRecording :
    shows .startRecording { withLog [⟨true, 100⟩] with tape := ⟨[], true, 0, [⟨true, 100⟩], true⟩ }
      (fun t => (t.tape.edgeLog, t.tape.toneLevel)) = some ([], true) := by decide

/-- V65: 41 T-states are one sample of the first level. -/
theorem test_synthWav_one :
    shows .synthWav (withLog [⟨true, 0⟩, ⟨false, 41⟩])
      (fun t => match t.result with
        | .file (some bytes) => (bytes.length, bytes.drop 44, bytes.take 8)
        | _ => (0, [], [])) =
      some (46, [0x80, 0x3E], [0x52, 0x49, 0x46, 0x46, 0x26, 0x00, 0x00, 0x00]) := by decide

/-- V62: one edge gives no file. -/
theorem test_synthWav_none :
    shows .synthWav (withLog [⟨true, 5⟩]) (fun t => (t.result, t.diagLog)) =
      some (.file none, [.wavTooFewEdges 1]) := by decide

-- Dispatcher

/-- V6: write-only ports. -/
theorem test_inWo :
    shows (.inWoSeg 1) (withDs 0x04) (fun t => (t.result, t.diagLog)) = some (.byte 0xFF, []) ∧
    shows (.inWoDig 2) (withDs 0x04) (fun t => (t.result, t.diagLog)) = some (.byte 0xFF, []) ∧
    shows (.inWoPrt 3) (withDs 0x04) (fun t => (t.result, t.diagLog)) = some (.byte 0xFF, []) := by decide

/-- V4, V5: writes to read-only ports. -/
theorem test_outRo :
    shows (.outRoPrt 0x55 0) s0 (·.diagLog) = some [.unmappedWrite 0xCB 0x55] ∧
    shows (.outRoKey 0x00 0x01 0) s0 (·.diagLog) = some [.unmappedWrite 0x00 0x01] ∧
    shows (.outRoTape 0x03 0x01 0) s0 (·.diagLog) = some [.unmappedWrite 0x03 0x01] := by decide

/-- V2, V3: unmapped ports. -/
theorem test_unmapped :
    shows (.inUnmapped 0x40 0) s0 (fun t => (t.result, t.diagLog)) = some (.byte 0xFF, [.unmappedRead 0x40]) ∧
    shows (.outUnmapped 0x7F 0x12 0) s0 (fun t => (t.result, t.diagLog)) =
      some (.nothing, [.unmappedWrite 0x7F 0x12]) := by decide

/-- V82: a reset from a running printer. -/
theorem test_reset :
    shows .reset (running 3 5 true [0x1C]) (fun t => (t.prt.motorOn, t.prt.tgPulseCounter, t.prt.homePosition)) =
      some (false, 0, true) := by decide

-- Witnesses: states and operands that meet the hypotheses of the obligations

theorem witness_StepRunsDecodedOperation :
    admitted cfgT = true ∧
    ({ s0 with input := [.bus true 0x01 0x38 20] } : State).input = .bus true 0x01 0x38 20 :: [] ∧
    decode cfgT (.bus true 0x01 0x38 20) = .ok (.outSeg 0x38 20) := by decide

theorem witness_StepRefusesOrIdles :
    admitted { cfgT with watchdogReload := 0 } = false ∧
    (admitted cfgT = true ∧ s0.input = []) ∧
    (({ s0 with input := [.host 0b111 0 0 []] } : State).input = .host 0b111 0 0 [] :: [] ∧
      decode cfgT (.host 0b111 0 0 []) = .error (.undefinedHostSelector 0b111)) := by decide

/-- An idle step, and one that is not, with a request left behind it. -/
theorem witness_StepKeepsConfiguration :
    (∃ t, step s0 = .next t ∧ t.input = []) ∧
    (nextOf (step { s0 with input := [.bus true 0x01 0x38 20, .host 0b000 0 0 []] })).map (·.input) =
      some [.host 0b000 0 0 []] := ⟨⟨s0, rfl, rfl⟩, by decide⟩

theorem witness_StampReadByTwoOperations :
    (∀ v t, Instr.outSeg 0x38 20 ≠ .outDig v t) ∧ (∀ p t, Instr.outSeg 0x38 20 ≠ .inTape p t) :=
  ⟨fun _ _ h => (nomatch h), fun _ _ h => (nomatch h)⟩

theorem witness_DecodeInvertsEncode :
    admitted cfgTape = true ∧ (Instr.inTape 0x03 7000).wellFormed cfgTape = true ∧
    (Instr.outUnmapped 0xFF 0xFF 0).wellFormed cfgTape = true := by decide

theorem witness_HalfPeriodsAreRounded : 0 < cfgT.clockHz.den ∧ half2k cfgT = 448 ∧ half1k cfgT = 895 := by decide

theorem witness_SlotTable :
    (0x03 : Strobe) ≠ 0x01 ∧ (0x03 : Strobe) ≠ 0x02 ∧ (0x03 : Strobe) ≠ 0x04 ∧ (0x03 : Strobe) ≠ 0x08 ∧
    (0x03 : Strobe) ≠ 0x10 ∧ (0x03 : Strobe) ≠ 0x20 ∧ slotOf 0x03 = none ∧ slotOf 0x00 = none := by decide

theorem witness_TwoWritesDecideSegments : slotOf (withDs 0x20).disp.ds = some .s5 := by decide

/-- For StrobeStoresSixBits and OutDigSelectsAndRecords: a stamp equal to the last edge's, and an empty log. -/
theorem witness_OutDigSelectsAndRecords :
    (∀ e, (withLog [⟨true, 100⟩]).tape.edgeLog.getLast? = some e → e.t ≤ 100) ∧
    (∀ e, s0.tape.edgeLog.getLast? = some e → e.t ≤ 0) :=
  ⟨fun e h => by obtain rfl := Option.some.inj h; decide, fun e h => by cases h⟩

/-- Its two clauses on the log: the level 1 again at 100, the level 0 at 100. -/
theorem witness_OutDigSelectsAndRecords_clauses :
    (∃ e, (withLog [⟨true, 100⟩]).tape.edgeLog.getLast? = some e ∧ e.level = (0x80 : Byte).getLsbD 7) ∧
    (∀ e, (withLog [⟨true, 100⟩]).tape.edgeLog.getLast? = some e → e.level ≠ (0x7F : Byte).getLsbD 7) :=
  ⟨⟨⟨true, 100⟩, rfl, by decide⟩, fun e h => by obtain rfl := Option.some.inj h; decide⟩

theorem witness_OutDigRefusedBeforeLastEdge :
    (withLog [⟨true, 100⟩]).tape.edgeLog.getLast? = some ⟨true, 100⟩ ∧ 99 < 100 := ⟨rfl, by decide⟩

theorem witness_ClickLatchesOrLogs : (3 < 4 ∧ 8 < 9) ∧ (4 ≤ 4 ∨ 9 ≤ 0) ∧ (4 ≤ 0 ∨ 9 ≤ 9) := by decide

/-- No key latched; and a latched key whose strobe does not match (V27, V32). -/
theorem witness_KeypadIdleReadChangesNothing :
    ((0 : Fin 36).val = s0.keyp.keyRow.val * 9 + s0.keyp.keyCol.val ∧ s0.keyp.keyLatch = false) ∧
    ((7 : Fin 36).val = (withKey 0x3F 0 7 4).keyp.keyRow.val * 9 + (withKey 0x3F 0 7 4).keyp.keyCol.val ∧
      (withKey 0x3F 0 7 4).disp.ds.setWidth 8 &&& (kmT.get 7).pc ≠ (kmT.get 7).pc) := by decide

/-- An ordinary key and the three special ones, with the hold at 1 and at 0. -/
theorem witness_KeypadMatchingReadActs :
    ((12 : Fin 36).val = (withKey 0x04 1 3 1).keyp.keyRow.val * 9 + (withKey 0x04 1 3 1).keyp.keyCol.val ∧
      (withKey 0x04 1 3 1).keyp.keyLatch = true ∧
      (withKey 0x04 1 3 1).disp.ds.setWidth 8 &&& (kmT.get 12).pc = (kmT.get 12).pc ∧
      1 ≤ (withKey 0x04 1 3 1).keyp.keyHold) ∧
    ((0 : Fin 36).val = (withKey 0x01 0 0 0).keyp.keyRow.val * 9 + (withKey 0x01 0 0 0).keyp.keyCol.val ∧
      (withKey 0x01 0 0 0).disp.ds.setWidth 8 &&& (kmT.get 0).pc = (kmT.get 0).pc ∧
      (withKey 0x01 0 0 0).keyp.keyHold ≤ 0) ∧
    ((18 : Fin 36).val = (withKey 0x01 2 0 4).keyp.keyRow.val * 9 + (withKey 0x01 2 0 4).keyp.keyCol.val ∧
      (withKey 0x01 2 0 4).disp.ds.setWidth 8 &&& (kmT.get 18).pc = (kmT.get 18).pc) ∧
    ((9 : Fin 36).val = (withKey 0x01 1 0 4).keyp.keyRow.val * 9 + (withKey 0x01 1 0 4).keyp.keyCol.val ∧
      (withKey 0x01 1 0 4).disp.ds.setWidth 8 &&& (kmT.get 9).pc = (kmT.get 9).pc) := by decide

theorem witness_FiveMatchingReadsPerClick :
    (withKey 0x04 1 3 4).keyp.keyHold = 4 ∧ (withKey 0x04 1 3 4).keyp.keyLatch = true ∧
    (withKey 0x04 1 3 4).disp.ds.setWidth 8 &&& (keyEntry cfgT (withKey 0x04 1 3 4).keyp).pc =
      (keyEntry cfgT (withKey 0x04 1 3 4).keyp).pc := by decide

theorem witness_InactivePrinterReadsAsKeypad :
    ({ cfgT with printerPresent := false } : Config).printerPresent = false ∧
    (cfgMotor.printerActiveDef = .motor ∧ s0.prt.motorOn = false) := by decide

/-- A line without data; one with data at 990, whose next line ends at 1000, the maximum; and one at 991. -/
theorem witness_ControlWriteStartsMotor :
    (cfgT.printerPresent = true ∧ (0x80 : Byte).getLsbD 7 = true ∧ s0.prt.motorOn = false ∧
      s0.prt.columnBuffer = [] ∧ s0.prt.lineHasData = false) ∧
    ((resting 990).prt.motorOn = false ∧ (resting 990).prt.columnBuffer = [] ∧ (resting 990).prt.lineHasData = true ∧
      (resting 990).prt.paperY + cfgT.headHeight + cfgT.lineSpacing ≤ cfgT.paperMaxY) ∧
    ((resting 991).prt.motorOn = false ∧ (resting 991).prt.columnBuffer = [] ∧ (resting 991).prt.lineHasData = true ∧
      cfgT.paperMaxY < (resting 991).prt.paperY + cfgT.headHeight + cfgT.lineSpacing) := by decide

theorem witness_ControlWritePushesColumn :
    cfgT.printerPresent = true ∧ (0xC1 : Byte).getLsbD 7 = true ∧ (running 1 0 true []).prt.motorOn = true ∧
    (running 1 0 true []).prt.skipFirst = true ∧ (running 1 0 false []).prt.skipFirst = false := by decide

theorem witness_ControlWriteStopsAndPrints :
    cfgT.printerPresent = true ∧ (0x7F : Byte).getLsbD 7 = false ∧ (running 5 0 false [0x41]).prt.motorOn = true := by
  decide

theorem witness_ControlWriteWithoutEffect :
    (cfgT.printerPresent = true ∧ (0x7F : Byte).getLsbD 7 = false ∧ s0.prt.motorOn = false) ∧
    ({ cfgT with printerPresent := false } : Config).printerPresent = false := by decide

theorem witness_StatusReadCountsAndStops :
    cfgT.printerPresent = true ∧ cfgT.printerActiveDef = .attached ∧ s0.prt.motorOn = false ∧
    ((running 2 0 false []).prt.motorOn = true ∧ 2 ≤ (running 2 0 false []).prt.watchdog) ∧
    ((running 1 0 false []).prt.motorOn = true ∧ (running 1 0 false []).prt.watchdog = 1) := by decide

/-- With the watchdog at 3: two reads, and three; under either reading of an inactive printer. -/
theorem witness_WatchdogStopsMotorOnce :
    cfgT.printerPresent = true ∧ cfgMotor.printerPresent = true ∧ cfgMotor.printerActiveDef = .motor ∧
    (running 3 0 false [0x1C]).prt.motorOn = true ∧
    1 ≤ (running 3 0 false [0x1C]).prt.watchdog ∧ 2 < (running 3 0 false [0x1C]).prt.watchdog ∧
    (running 3 0 false [0x1C]).prt.watchdog ≤ 3 := by decide

theorem witness_PassPrintsAllButFirstColumn :
    cfgT.printerPresent = true ∧ s0.prt.motorOn = false ∧ s0.prt.columnBuffer = [] ∧ s0.prt.lineHasData = false ∧
    (0x80 : Byte).getLsbD 7 = true ∧ (0x00 : Byte).getLsbD 7 = false ∧
    (∀ w ∈ [(0xFF : Byte), 0xC1], w.getLsbD 7 = true) := by decide

theorem witness_StatusByteNeverThree :
    cfgT.printerPresent = true ∧ cfgT.printerActiveDef = .attached ∧
    (running 9 2 false []).prt.homePosition = !(running 9 2 false []).prt.motorOn ∧
    s0.prt.homePosition = !s0.prt.motorOn := by decide

theorem witness_DataRecordsComeInFileOrder :
    ∀ r ∈ [((0x1800, [0xAA, 0xBB], 0x99) : BitVec 16 × List Byte × Byte)], r.2.1.length < 256 := by decide

theorem witness_EachLineContributesAlone :
    [[':', '0'], ['j'], []] ≠ [] ∧ (∀ l ∈ [[':', '0'], ['j'], []], '\n' ∉ l) := by decide

/-- A short line, one with a bad field, one whose payload is short, one whose payload has a bad digit. -/
theorem witness_MalformedLineTest :
    'j' ≠ ':' ∧ ['0', '1'].length < 8 ∧
    (∃ c ∈ ['0', '1', '0', '0', '0', '0', '0', 'z'].take 8, hexDigit c = none) ∧
    hexBytes ['0', '2'] = some [0x02] ∧ hexBytes ['0', '0'] = some [0x00] ∧
    ['0', '2', '0', '0', '0', '0', '0', '0', 'A', 'A'].length < 8 + 2 * (0x02 : Byte).toNat ∧
    (∃ c ∈ ['z', 'z', '0', '0'].take 4, hexDigit c = none) :=
  ⟨by decide, by decide, ⟨'z', by decide, by decide⟩, by decide, by decide, by decide, ⟨'z', by decide, by decide⟩⟩

/-- Its clauses on good fields: a type 01 record, and a data record of one byte. -/
theorem witness_MalformedLineTest_types :
    hexBytes ['0', '0', '0', '0', '0', '0', '0', '1'] = some [0x00, 0x00, 0x00, 0x01] ∧ (0x01 : Byte) ≠ 0x00 ∧
    hexBytes ['0', '1', '0', '0', '0', '0', '0', '0'] = some [0x01, 0x00, 0x00, 0x00] ∧
    hexBytes ['7', 'f'] = some [0x7F] ∧ [(0x7F : Byte)].length = (0x01 : Byte).toNat :=
  ⟨by decide, by decide, by decide, by decide, by decide⟩

theorem witness_OtherRecordTypesAreIgnored :
    ∀ r ∈ [((0x04, 0x0000, [0x12, 0x34], 0xB4) : Byte × BitVec 16 × List Byte × Byte), (0x00, 0x1800, [0x7F], 0x70)],
      r.2.2.1.length < 256 := by decide

/-- A pair of digits in either case, and a line trimmed at both ends that keeps its inner space. -/
theorem witness_HexDigitsAndTrimming :
    hexDigit 'a' = some 10 ∧ hexDigit 'F' = some 15 ∧ hexDigit 'g' = none ∧ hexDigit 'G' = none ∧
    (∀ c ∈ [' ', '\t'] ++ ['\r'], c = ' ' ∨ c = '\t' ∨ c = '\r') ∧
    (∀ c, [':', ' ', '0'].head? = some c ∨ [':', ' ', '0'].getLast? = some c → c ≠ ' ' ∧ c ≠ '\t' ∧ c ≠ '\r') := by
  refine ⟨by decide, by decide, by decide, by decide, by simp, ?_⟩
  rintro c (h | h) <;> simp at h <;> subst h <;> simp

/-- An origin still to be taken, and one taken, read at its own stamp. -/
theorem witness_InTapeReadsLevel :
    admitted cfgTape = true ∧ (State.resetWith cfgTape).tape.originPending = true ∧
    (playing [0xAA] 7000).tape.originPending = false ∧ (playing [0xAA] 7000).tape.playbackOriginT ≤ 7000 := by decide

/-- Its last two clauses: one byte at 107460 T-states, and at 107459. -/
theorem witness_InTapeReadsLevel_clauses :
    ((1 : Nat) : Int) ≤ ⌊((107460 : Nat) : Rat) / (cfgTape.avgBitT.toRat * 10)⌋ ∧
    ⌊((107459 : Nat) : Rat) / (cfgTape.avgBitT.toRat * 10)⌋ < ((1 : Nat) : Int) := by
  refine ⟨Int.le_floor.2 ?_, Int.floor_lt.2 ?_⟩ <;> norm_num [Ratio.toRat, cfgTape, cfgT, Config.reference]

theorem witness_TapeLastsItsBytes :
    admitted cfgTape = true ∧ (playing [0xAA] 7000).tape.originPending = false ∧
    (playing [0xAA] 7000).tape.playbackOriginT ≤ 7000 := by decide

theorem witness_InTapeRefusedBeforeOrigin :
    (playing [0xAA] 7000).tape.originPending = false ∧ 6999 < (playing [0xAA] 7000).tape.playbackOriginT := by decide

/-- V54's writes. -/
theorem witness_EdgeLogKeepsLevelChanges :
    s0.tape.edgeLog = [] ∧
    [((0x80, 100) : Byte × Nat), (0xC1, 200), (0x00, 300), (0x00, 300)].IsChain (fun x y => x.2 ≤ y.2) := by decide

/-- For the statements about ports: `KEYPAD_PORT` and `TAPEIN_PORT` present, and a port no row names. -/
theorem witness_ReadOnlyPortWritesOnlyLog :
    admitted cfgTape = true ∧ cfgTape.keypadPort = some 0x00 ∧ cfgTape.tapeinPort = some 0x03 := by decide

theorem witness_UnmappedReadsLogAndReturnFF :
    (0x40 : Byte) ≠ 0x01 ∧ (0x40 : Byte) ≠ 0x02 ∧ (0x40 : Byte) ≠ 0xCA ∧ (0x40 : Byte) ≠ 0xCB ∧
    cfgTape.keypadPort ≠ some 0x40 ∧ cfgTape.tapeinPort ≠ some 0x40 := by decide

theorem witness_UnmappedWritesOnlyLog :
    (0x04 : Byte) ≠ 0x01 ∧ (0x04 : Byte) ≠ 0x02 ∧ (0x04 : Byte) ≠ 0xCA ∧ (0x04 : Byte) ≠ 0xCB ∧
    cfgTape.keypadPort ≠ some 0x04 ∧ cfgTape.tapeinPort ≠ some 0x04 := by decide

theorem witness_WavNeedsTwoEdges : (withLog [⟨true, 5⟩]).tape.edgeLog.length < 2 := by decide

/-- V58: 44 samples; its configuration and log. -/
theorem witness_WavFileHasHeaderAndSamples :
    admitted cfgT = true ∧ 2 ≤ (withLog [⟨true, 0⟩, ⟨false, 1790⟩]).tape.edgeLog.length ∧
    (withLog [⟨true, 0⟩, ⟨false, 1790⟩]).tape.edgeLog.head? = some ⟨true, 0⟩ ∧
    (withLog [⟨true, 0⟩, ⟨false, 1790⟩]).tape.edgeLog.getLast? = some ⟨false, 1790⟩ ∧
    ((44 : Nat) : Int) = ⌊((1790 - 0 : Nat) : Rat) * 44100 / cfgT.clockHz.toRat⌋ ∧ 36 + 2 * 44 < 2 ^ 32 := by
  refine ⟨by decide, by decide, rfl, rfl, Eq.symm (Int.floor_eq_iff.2 ?_), by norm_num⟩
  norm_num [Ratio.toRat, cfgT, Config.reference]

/-- The size field at its last value and one past it, at one sample a T-state. -/
theorem witness_WavFileHasHeaderAndSamples_size :
    admitted cfgOne = true ∧
    ((2147483629 : Nat) : Int) = ⌊((2147483629 - 0 : Nat) : Rat) * 44100 / cfgOne.clockHz.toRat⌋ ∧
    36 + 2 * 2147483629 < 2 ^ 32 ∧
    ((2147483630 : Nat) : Int) = ⌊((2147483630 - 0 : Nat) : Rat) * 44100 / cfgOne.clockHz.toRat⌋ ∧
    2 ^ 32 ≤ 36 + 2 * 2147483630 := by
  refine ⟨by decide, Eq.symm (Int.floor_eq_iff.2 ?_), by norm_num, Eq.symm (Int.floor_eq_iff.2 ?_), by norm_num⟩ <;>
    norm_num [Ratio.toRat, cfgOne]

/-- For OnlyThreeRefusals: a log that is refused for its size; the two stamp refusals are tested above. -/
theorem witness_OnlyThreeRefusals :
    2 ≤ [Edge.mk true 0, ⟨false, 2147483630⟩].length ∧
    2 ^ 32 ≤ 36 + 2 * wavTotal cfgOne [⟨true, 0⟩, ⟨false, 2147483630⟩] := by decide

theorem witness_TwoEdgeWavHasOneLevel :
    (withLog [⟨true, 0⟩, ⟨false, 1790⟩]).tape.edgeLog = [⟨true, 0⟩, ⟨false, 1790⟩] ∧
    36 + 2 * wavTotal cfgT [⟨true, 0⟩, ⟨false, 1790⟩] < 2 ^ 32 := by decide

/-- V60's log. -/
theorem witness_WavClipNeverCuts :
    0 < cfgT.clockHz.num ∧ 2 ≤ [Edge.mk true 100, ⟨false, 300⟩, ⟨true, 500⟩].length ∧
    [Edge.mk true 100, ⟨false, 300⟩, ⟨true, 500⟩].IsChain (fun e e' => e.t ≤ e'.t) := by decide

/-- A running printer, a logged edge and a step that is not idle. -/
theorem witness_StepKeepsInvariants :
    let s : State := { running 1 0 false [0x41] with
      input := [.bus false 0xCB 0 0], tape := { Tape.reset with edgeLog := [⟨true, 1⟩, ⟨false, 1⟩] } }
    Inv s ∧ paperWf s ∧ (nextOf (step s)).isSome = true := by
  refine ⟨⟨by decide, by decide, by decide, by decide, by decide, by decide, by decide, ?_, by decide, by decide⟩,
    by decide, by decide⟩
  intro k
  cases k <;> decide

/-- For the statements about an operation's next state: one that is answered, is no reset, and makes a request. -/
theorem witness_AtMostOneRequestPerOperation :
    ∃ t, exec (.inKey 0x00 0) (withKey 0x01 0 0 4) = .next t ∧ Instr.inKey 0x00 0 ≠ .reset ∧
      t.cpuReq = [.resetPC] ∧ t.keyp ≠ (withKey 0x01 0 0 4).keyp :=
  ⟨_, rfl, by decide, by decide, by decide⟩

/-- For ElementsWrittenOnlyByTheirOperations: a status read that stops the motor and a control write that advances the
paper, neither a reset. -/
theorem witness_ElementsWrittenOnlyByTheirOperations :
    shows (.inPrt 0) (running 1 0 false [0x41]) (·.prt.paper) = some [⟨0, 0⟩, ⟨0, 6⟩] ∧
    shows (.outPrt 0x80 0) (resting 990) (fun t => (t.prt.paperY, t.prt.lineHasData)) = some (1000, false) ∧
    Instr.inPrt 0 ≠ .reset ∧ Instr.outPrt 0x80 0 ≠ .reset := by decide

/-- For DiagnosticsAreNeverRead: an operation that is answered and one that is refused. -/
theorem witness_DiagnosticsAreNeverRead :
    (∃ t, exec (.inUnmapped 0x40 0) s0 = .next t) ∧
    refusalOf (exec (.outDig 0x00 99) (withLog [⟨true, 100⟩])) = some .stampBeforeLastEdge := ⟨⟨_, rfl⟩, by decide⟩

end Sys2Proof.Tests
end

