-- ==== Sys2Proof/Proofs/Scope.lean ====
section
/-! PROOF. The statements of spec/00_scope.md: what a step does that runs no operation, what every step keeps, and
which configurations are admitted. -/

namespace Sys2Proof.Machine

-- Steps that run no operation

/-- A configuration that breaks a constraint refuses every step (R5, X1). -/
theorem step_of_not_admitted {s : State} (h : admitted s.cfg = false) : step s = .refused .badConfiguration := by
  simp [step, h]

/-- With no operation issued a step is idle (R11, log entry 4). -/
theorem step_of_input_nil {s : State} (ha : admitted s.cfg = true) (hi : s.input = []) : step s = .next s := by
  simp [step, ha, nextRequest_nil hi]

/-- A request the decoder rejects refuses the step (R68, X3). -/
theorem step_of_decode_error {s : State} {r : Request} {rest : List Request} {why : Reject}
    (ha : admitted s.cfg = true) (hi : s.input = r :: rest) (hd : decode s.cfg r = .error why) :
    step s = .refused (.rejected why) := by
  simp [step, ha, nextRequest_cons hi, hd]

/-- Settles O2, each clause by the equation of `step` for its case. -/
theorem stepRefusesOrIdles : Obligations.StepRefusesOrIdles := fun _ =>
  ⟨step_of_not_admitted, step_of_input_nil, fun _ _ _ => step_of_decode_error⟩

-- What every operation keeps

/-- No operation writes the configuration or the requests behind it (log entries 1 and 4): `RESET` puts both back, and
every other operation writes only devices, logs and the result. -/
theorem exec_keeps_cfg_input {i : Instr} {s t : State} (h : exec i s = .next t) :
    t.cfg = s.cfg ∧ t.input = s.input := by
  cases i with
  | outDig v T =>
    cases hb : beforeLastEdge s.tape T with
    | false => cases (execOutDig_next hb).symm.trans h; exact ⟨rfl, rfl⟩
    | true => cases (execOutDig_refused hb).symm.trans h
  | inTape p T =>
    cases hb : beforeOrigin s.tape T with
    | false => cases (execInTape_next (p := p) hb).symm.trans h; exact ⟨rfl, rfl⟩
    | true => cases (execInTape_refused (p := p) hb).symm.trans h
  | outPrt v T =>
    obtain ⟨-, e⟩ | ⟨-, e⟩ := execOutPrt_cases v T s
    all_goals cases e.symm.trans h; exact ⟨rfl, rfl⟩
  | inPrt T =>
    obtain ⟨-, e⟩ | ⟨-, e⟩ := execInPrt_cases T s
    all_goals cases e.symm.trans h; exact ⟨rfl, rfl⟩
  | click row col =>
    obtain ⟨_, _, e⟩ | ⟨-, e⟩ := execClick_cases row col s
    all_goals cases e.symm.trans h; exact ⟨rfl, rfl⟩
  | synthWav =>
    obtain ⟨-, e⟩ | ⟨-, -, e⟩ | ⟨-, -, e⟩ := execSynthWav_cases s
    · cases e.symm.trans h; exact ⟨rfl, rfl⟩
    · cases e.symm.trans h; exact ⟨rfl, rfl⟩
    · cases e.symm.trans h
  | _ => cases h; exact ⟨rfl, rfl⟩

/-- Settles O4: an idle step has no request to take, any other runs an operation on the state with its request
taken. -/
theorem stepKeepsConfiguration : Obligations.StepKeepsConfiguration := by
  intro s t h
  obtain ⟨-, ⟨hi, rfl⟩ | ⟨r, rest, i, hi, -, he⟩⟩ := step_next_cases h
  · simp [hi]
  · obtain ⟨hcfg, hinput⟩ := exec_keeps_cfg_input he
    exact ⟨hcfg, by rw [hinput, hi]; rfl⟩

-- The admitted configurations

/-- `roundDiv q k` is `round(q / k) = floor(q / k + 1/2)` over the rationals (R7, D17). -/
theorem roundDiv_eq_floor {q : Ratio} {k : Nat} (hk : 0 < k) (hd : 0 < q.den) :
    (roundDiv q k : Int) = ⌊q.toRat / k + 1 / 2⌋ := by
  have hquot : q.toRat / k + 1 / 2 = ((2 * q.num + k * q.den : Nat) : Rat) / (2 * k * q.den : Nat) := by
    have : (k : Rat) ≠ 0 := by positivity
    have : (q.den : Rat) ≠ 0 := by positivity
    push_cast [Ratio.toRat]
    field_simp
  rw [hquot, Rat.floor_natCast_div_natCast, roundDiv, Int.natCast_ediv]

/-- `HALF_2K` over the rationals (R140). -/
theorem half2k_eq_floor {cfg : Config} (hd : 0 < cfg.clockHz.den) :
    (half2k cfg : Int) = ⌊cfg.clockHz.toRat / 4000 + 1 / 2⌋ := by
  rw [half2k, roundDiv_eq_floor (by decide) hd, Nat.cast_ofNat]

theorem portFree_iff (port : Option Byte) :
    portFree port = true ↔ ∀ p, port = some p → p ≠ 0x01 ∧ p ≠ 0x02 ∧ p ≠ 0xCA ∧ p ≠ 0xCB := by
  cases port <;> simp [portFree, and_assoc]

theorem ratioPositive_iff (q : Ratio) : ratioPositive q = true ↔ 0 < q.num ∧ 0 < q.den := by
  simp [ratioPositive]

/-- The two parameter ports do not coincide when both are present (D5). -/
theorem portsDistinct_iff (kp tp : Option Byte) :
    (kp == none || kp != tp) = true ↔ ∀ p q, kp = some p → tp = some q → p ≠ q := by
  cases kp <;> cases tp <;> simp

/-- The test of a configuration, constraint by constraint, in the order of `admitted`. -/
theorem admitted_iff (cfg : Config) :
    admitted cfg = true ↔
      portFree cfg.keypadPort = true ∧ portFree cfg.tapeinPort = true ∧
      (cfg.keypadPort == none || cfg.keypadPort != cfg.tapeinPort) = true ∧
      ratioPositive cfg.clockHz = true ∧ ratioPositive cfg.avgBitT = true ∧ 1 ≤ half2k cfg ∧
      1 ≤ cfg.watchdogReload ∧ 1 ≤ cfg.tgPhaseWidth ∧ cfg.paperResetY ≤ cfg.paperMaxY := by
  simp only [admitted, Bool.and_eq_true, decide_eq_true_eq, and_assoc]

/-- Settles O10: the tests of `admitted` one by one, with `HALF_2K` read over the rationals once the clock's
denominator is known to be positive. -/
theorem admittedMeetsEveryConstraint : Obligations.AdmittedMeetsEveryConstraint := by
  intro cfg
  rw [admitted_iff, portFree_iff, portFree_iff, portsDistinct_iff, ratioPositive_iff, ratioPositive_iff]
  constructor
  · rintro ⟨hkey, htape, hne, hclock, hbit, hhalf, hrest⟩
    have hfloor := half2k_eq_floor hclock.2
    exact ⟨fun p hp => hp.elim (hkey p) (htape p), hne, hclock, hbit, by omega, hrest⟩
  · rintro ⟨hport, hne, hclock, hbit, hhalf, hrest⟩
    have hfloor := half2k_eq_floor hclock.2
    exact ⟨fun p hp => hport p (.inl hp), fun p hp => hport p (.inr hp), hne, hclock, hbit, by omega, hrest⟩

end Sys2Proof.Machine
end

section
/-! PROOF. The statements of spec/10_state.md: what an answered operation can do, said once, and from it which
operations write which element, what each does to the two logs, and that every step keeps the paper canonical. -/

namespace Sys2Proof.Machine

-- The segment bits

/-- Settles O12: the table entry by entry, and the segment bits read through it. -/
theorem segmentBitTable : Obligations.SegmentBitTable :=
  ⟨rfl, rfl, rfl, rfl, rfl, rfl, rfl, rfl, segBits_segOfBit⟩

-- What an answered operation can do

/-- `ExecEffect s i t`: the operation `i`, answered in the state `s`, leaves `t`. One constructor per way of writing a
device; the operations that write none share `answers` and `reports`. -/
inductive ExecEffect (s : State) : Instr → State → Prop where
  /-- `OUT.SEG` (R82). -/
  | segments (v : Byte) (T : Nat) :
      ExecEffect s (.outSeg v T) ((s.setDisp (writeSegments s.disp v)).returns .nothing)
  /-- `OUT.DIG`, not refused by stamp test (b) (R61, R83). -/
  | digit (v : Byte) (T : Nat) (stamp : beforeLastEdge s.tape T = false) :
      ExecEffect s (.outDig v T)
        (((s.setDisp (selectDigit s.disp v)).setTape (recordEdge (setTone s.tape v) v T)).returns .nothing)
  /-- `OUT.PRT` with a printer (R84). -/
  | control (v : Byte) (T : Nat) (present : s.cfg.printerPresent = true) :
      ExecEffect s (.outPrt v T) ((s.setPrt (writeControl s.cfg s.prt v)).returns .nothing)
  /-- `IN.PRT` with the printer active (R85). -/
  | status (T : Nat) (active : printerActive s.cfg s.prt = true) :
      ExecEffect s (.inPrt T) ((s.setPrt (statusAfter s.prt)).returns (.byte (statusRead s.cfg s.prt)))
  /-- `IN.KEY`, and `IN.PRT` with the printer not active (R85, R86). -/
  | keypad (i : Instr)
      (reader : (∃ p T, i = .inKey p T) ∨ (∃ T, i = .inPrt T) ∧ printerActive s.cfg s.prt = false) :
      ExecEffect s i (readKeypad s)
  /-- `IN.TAPE`, not refused by stamp test (a) (R61, R87). -/
  | playback (p : Byte) (T : Nat) (stamp : beforeOrigin s.tape T = false) :
      ExecEffect s (.inTape p T)
        ((s.setTape (takeOrigin s.tape T)).returns (.byte (readBitByte s.cfg s.tape T)))
  /-- `RESET` (R230). -/
  | reset : ExecEffect s .reset ((State.resetWith s.cfg).setInput s.input)
  /-- `DISPLAY_CLEAR` (R106). -/
  | clear : ExecEffect s .displayClear ((s.setDisp (clearDisplay s.disp)).returns .nothing)
  /-- `CLICK` inside the grid (R121). -/
  | click (row : Fin 4) (col : Fin 9) :
      ExecEffect s (.click row col) ((s.setKeyp (recordClick s.keyp row col)).returns .nothing)
  /-- `LOAD_TAPE` (R145). -/
  | load (text : List Char) :
      ExecEffect s (.loadTape text)
        (((s.setTape (loadTapeBytes s.tape (extractData text).1)).logDiags (extractData text).2).returns .nothing)
  /-- `START_RECORDING` (R153). -/
  | record : ExecEffect s .startRecording ((s.setTape (startLog s.tape)).returns .nothing)
  /-- An operation that only returns a value: a read of a write-only port, a WAV that is made (R88, R155). -/
  | answers (i : Instr) (r : Result) : ExecEffect s i (s.returns r)
  /-- An operation that only logs a diagnostic and returns (R89 to R91, R121, R155). -/
  | reports (i : Instr) (d : Diag) (r : Result) : ExecEffect s i ((s.logDiags [d]).returns r)

/-- Every answered operation has one of these effects. -/
theorem execEffect_of_next {i : Instr} {s t : State} (h : exec i s = .next t) : ExecEffect s i t := by
  cases i with
  | outSeg v T => cases h; exact .segments v T
  | outDig v T =>
    cases hb : beforeLastEdge s.tape T with
    | false => cases (execOutDig_next hb).symm.trans h; exact .digit v T hb
    | true => cases (execOutDig_refused hb).symm.trans h
  | outPrt v T =>
    obtain ⟨hp, e⟩ | ⟨-, e⟩ := execOutPrt_cases v T s
    · cases e.symm.trans h; exact .control v T hp
    · cases e.symm.trans h; exact .reports _ _ _
  | inPrt T =>
    obtain ⟨ha, e⟩ | ⟨ha, e⟩ := execInPrt_cases T s
    · cases e.symm.trans h; exact .status T ha
    · cases e.symm.trans h; exact .keypad _ (.inr ⟨⟨T, rfl⟩, ha⟩)
  | inKey p T => cases h; exact .keypad _ (.inl ⟨p, T, rfl⟩)
  | inTape p T =>
    cases hb : beforeOrigin s.tape T with
    | false => cases (execInTape_next (p := p) hb).symm.trans h; exact .playback p T hb
    | true => cases (execInTape_refused (p := p) hb).symm.trans h
  | inWoSeg T | inWoDig T | inWoPrt T => cases h; exact .answers _ _
  | outRoPrt v T | outRoKey p v T | outRoTape p v T | inUnmapped p T | outUnmapped p v T =>
    cases h; exact .reports _ _ _
  | reset => cases h; exact .reset
  | displayClear => cases h; exact .clear
  | click row col =>
    obtain ⟨hr, hc, e⟩ | ⟨-, e⟩ := execClick_cases row col s
    · cases e.symm.trans h; exact .click ⟨row, hr⟩ ⟨col, hc⟩
    · cases e.symm.trans h; exact .reports _ _ _
  | loadTape text => cases h; exact .load text
  | startRecording => cases h; exact .record
  | synthWav =>
    obtain ⟨-, e⟩ | ⟨-, -, e⟩ | ⟨-, -, e⟩ := execSynthWav_cases s
    · cases e.symm.trans h; exact .reports _ _ _
    · cases e.symm.trans h; exact .answers _ _
    · cases e.symm.trans h

-- The paper

/-- Only control writes, status reads and `RESET` reach the paper: the first two keep it canonical, `RESET` empties
it. -/
theorem exec_keeps_paperWf {i : Instr} {s t : State} (hs : paperWf s) (h : exec i s = .next t) : paperWf t := by
  cases execEffect_of_next h with
  | control v T => exact writeControl_sorted s.cfg v hs
  | status T => exact statusAfter_sorted hs
  | reset => exact List.Pairwise.nil
  | _ => exact hs

/-- Settles O54: an idle step changes nothing, any other runs an operation on the state with its request taken. -/
theorem stepKeepsPaperCanonical : Obligations.StepKeepsPaperCanonical := by
  intro s t hs h
  obtain ⟨-, ⟨-, rfl⟩ | ⟨r, rest, i, -, -, he⟩⟩ := step_next_cases h
  · exact hs
  · exact exec_keeps_paperWf (s := s.setInput rest) hs he

-- The requests and the logs

/-- A keypad read that makes a request found a key latched (R123). -/
theorem keyLatch_of_keypadReq {cfg : Config} {ds : Strobe} {k : Keypad} {e : CpuReq}
    (h : keypadReq cfg ds k = some e) : k.keyLatch = true := by
  cases hm : keyMatches cfg ds k with
  | true => exact ((keyMatches_iff cfg ds k).1 hm).1
  | false =>
    obtain ⟨-, hnone, -⟩ := keypad_unmatched hm
    cases hnone.symm.trans h

/-- Settles O57: a keypad read alone makes requests, at most one and only of a latched key, and it logs nothing; every
other operation leaves the requests and appends what it logs. -/
theorem atMostOneRequestPerOperation : Obligations.AtMostOneRequestPerOperation := by
  intro i s t h hne
  cases execEffect_of_next h with
  | reset => exact absurd rfl hne
  | keypad =>
    refine ⟨⟨[], by simp [readKeypad]⟩, ?_⟩
    cases hreq : keypadReq s.cfg s.disp.ds s.keyp with
    | none => exact .inl (by simp [readKeypad, hreq])
    | some e => exact .inr ⟨e, by simp [readKeypad, hreq], rfl, keyLatch_of_keypadReq hreq⟩
  | load | reports => exact ⟨⟨_, rfl⟩, .inl rfl⟩
  | _ => exact ⟨⟨[], by simp⟩, .inl rfl⟩

-- The elements and their writers

@[simp] theorem keypadAfter_keyRow (cfg : Config) (ds : Strobe) (k : Keypad) :
    (keypadAfter cfg ds k).keyRow = k.keyRow := by
  unfold keypadAfter; split <;> simp

@[simp] theorem keypadAfter_keyCol (cfg : Config) (ds : Strobe) (k : Keypad) :
    (keypadAfter cfg ds k).keyCol = k.keyCol := by
  unfold keypadAfter; split <;> simp

/-- Settles O55, effect by effect: each writes only the elements its rule names, by the frames of the devices'
operations. -/
theorem elementsWrittenOnlyByTheirOperations : Obligations.ElementsWrittenOnlyByTheirOperations := by
  intro i s t h hne
  cases execEffect_of_next h with
  | reset => exact absurd rfl hne
  | digit v T => rw [recordEdge_eq]; simp [setTone]
  | keypad _ reader => obtain ⟨p, T, rfl⟩ | ⟨⟨T, rfl⟩, -⟩ := reader <;> simp [readKeypad]
  | status T =>
    obtain ⟨hqueue, hpaperY, hdata⟩ := statusAfter_frame s.prt
    simp [hqueue, hpaperY, hdata]
  | playback p T => simp [takeOrigin_eq]
  | click row col => simp [recordClick]
  | load text => simp [loadTapeBytes]
  | record => simp [startLog]
  | segments | control | clear | answers | reports => simp

end Sys2Proof.Machine
end

