-- ==== Sys2Proof/Proofs/Memory.lean ====
section
/-! PROOF. The statement of spec/20_memory.md section 6: what a step does that takes an operation. -/

namespace Sys2Proof.Machine

/-- A request the decoder accepts is taken, and its operation runs on the state that is left (R50, R51). -/
theorem step_of_decode_ok {s : State} {r : Request} {rest : List Request} {i : Instr}
    (ha : admitted s.cfg = true) (hi : s.input = r :: rest) (hd : decode s.cfg r = .ok i) :
    step s = exec i (s.setInput rest) := by
  simp [step, ha, nextRequest_cons hi, hd]

/-- Settles O1, by the equation of `step` for a request that decodes. -/
theorem stepRunsDecodedOperation : Obligations.StepRunsDecodedOperation := fun _ _ _ _ =>
  step_of_decode_ok

end Sys2Proof.Machine
end

