-- ==== Sys2Proof/Proofs/Encoding.lean ====
section
/-! PROOF. The statements of spec/30_encoding.md: under an admitted configuration every row of the operation map
decodes at its own port, and what a bus request decodes to is well formed and encodes back to it. -/

namespace Sys2Proof.Machine

-- Words written out

/-- Settles O6: twelve closed words, evaluated. -/
theorem writtenWordsDecode : Obligations.WrittenWordsDecode := by
  unfold Obligations.WrittenWordsDecode
  decide

-- The ports of a configuration

theorem isFixedPort_iff (p : Byte) : isFixedPort p = true ↔ p = 0x01 ∨ p = 0x02 ∨ p = 0xCA ∨ p = 0xCB := by
  simp [isFixedPort, or_assoc]

theorem isUnmappedPort_iff (cfg : Config) (p : Byte) :
    isUnmappedPort cfg p = true ↔
      (p ≠ 0x01 ∧ p ≠ 0x02 ∧ p ≠ 0xCA ∧ p ≠ 0xCB) ∧ cfg.keypadPort ≠ some p ∧ cfg.tapeinPort ≠ some p := by
  simp [isUnmappedPort, isFixedPort, and_assoc]

/-- A parameter port is none of the ports the source's map names (R5, R81). -/
theorem paramPort_free {cfg : Config} {p : Byte} (ha : admitted cfg = true)
    (hp : cfg.keypadPort = some p ∨ cfg.tapeinPort = some p) : p ≠ 0x01 ∧ p ≠ 0x02 ∧ p ≠ 0xCA ∧ p ≠ 0xCB := by
  obtain ⟨hfree, -⟩ := (admittedMeetsEveryConstraint cfg).1 ha
  exact hfree p hp

/-- A port the source's map names is no parameter port (R5, R81). -/
theorem paramPort_ne_of_fixed {cfg : Config} {p : Byte} (ha : admitted cfg = true) (hp : isFixedPort p = true) :
    cfg.keypadPort ≠ some p ∧ cfg.tapeinPort ≠ some p := by
  have hfree := paramPort_free (p := p) ha
  have hfixed := (isFixedPort_iff p).1 hp
  tauto

/-- The tape port is not the keypad port (D5). -/
theorem keypadPort_ne_of_tapein {cfg : Config} {p : Byte} (ha : admitted cfg = true)
    (hp : cfg.tapeinPort = some p) : cfg.keypadPort ≠ some p := by
  obtain ⟨-, hdistinct, -⟩ := (admittedMeetsEveryConstraint cfg).1 ha
  exact fun hk => hdistinct p p hk hp rfl

-- What each row decodes from, by direction

section Rows
variable {cfg : Config} {p : Byte} (v : Byte) (t : Nat)

theorem decodeWrite_keypad (ha : admitted cfg = true) (hp : cfg.keypadPort = some p) :
    decodeWrite cfg p v t = .outRoKey p v t := by
  simp only [decodeWrite, paramPort_free ha (.inl hp), hp, if_false, if_true]

theorem decodeWrite_tapein (ha : admitted cfg = true) (hp : cfg.tapeinPort = some p) :
    decodeWrite cfg p v t = .outRoTape p v t := by
  simp only [decodeWrite, paramPort_free ha (.inr hp), keypadPort_ne_of_tapein ha hp, hp, if_false, if_true]

theorem decodeWrite_unmapped (hp : isUnmappedPort cfg p = true) :
    decodeWrite cfg p v t = .outUnmapped p v t := by
  simp only [decodeWrite, (isUnmappedPort_iff cfg p).1 hp, if_false]

theorem decodeRead_keypad (ha : admitted cfg = true) (hp : cfg.keypadPort = some p) :
    decodeRead cfg p t = .inKey p t := by
  simp only [decodeRead, paramPort_free ha (.inl hp), hp, if_false, if_true]

theorem decodeRead_tapein (ha : admitted cfg = true) (hp : cfg.tapeinPort = some p) :
    decodeRead cfg p t = .inTape p t := by
  simp only [decodeRead, paramPort_free ha (.inr hp), keypadPort_ne_of_tapein ha hp, hp, if_false, if_true]

theorem decodeRead_unmapped (hp : isUnmappedPort cfg p = true) :
    decodeRead cfg p t = .inUnmapped p t := by
  simp only [decodeRead, (isUnmappedPort_iff cfg p).1 hp, if_false]

/-- The write-only ports come after the parameter ports in the order of R66, and are none of them. -/
theorem decodeRead_writeOnly (ha : admitted cfg = true) :
    decodeRead cfg 0x01 t = .inWoSeg t ∧ decodeRead cfg 0x02 t = .inWoDig t ∧
      decodeRead cfg 0xCA t = .inWoPrt t := by
  have hseg := paramPort_ne_of_fixed (p := 0x01) ha (by decide)
  have hdig := paramPort_ne_of_fixed (p := 0x02) ha (by decide)
  have hprt := paramPort_ne_of_fixed (p := 0xCA) ha (by decide)
  simp only [decodeRead, hseg, hdig, hprt, if_false]
  exact ⟨rfl, rfl, rfl⟩

end Rows

-- Decoding after encoding

/-- A write of a byte to a byte's port needs no masking (R41). -/
theorem decode_write (cfg : Config) (p v : Byte) (t : Nat) :
    decode cfg (.bus true p.toNat v.toNat t) = .ok (decodeWrite cfg p v t) := by
  simp [decode_bus]

/-- A read of a byte's port needs no masking, and its value is not looked at (R41, R67). -/
theorem decode_read (cfg : Config) (p : Byte) (v t : Nat) :
    decode cfg (.bus false p.toNat v t) = .ok (decodeRead cfg p t) := by
  simp [decode_bus]

/-- Settles O7, row by row: a port the source's map names is decoded at its literal, a parameter port and an unmapped one
by what well-formedness says of it, a host operation by its selector. -/
theorem decodeInvertsEncode : Obligations.DecodeInvertsEncode := by
  intro cfg i ha hwf
  cases i with
  | outSeg v t => exact decode_write cfg 0x01 v t
  | outDig v t => exact decode_write cfg 0x02 v t
  | outPrt v t => exact decode_write cfg 0xCA v t
  | outRoPrt v t => exact decode_write cfg 0xCB v t
  | outRoKey p v t =>
    exact (decode_write cfg p v t).trans (congrArg _ (decodeWrite_keypad v t ha (eq_of_beq hwf)))
  | outRoTape p v t =>
    exact (decode_write cfg p v t).trans (congrArg _ (decodeWrite_tapein v t ha (eq_of_beq hwf)))
  | outUnmapped p v t => exact (decode_write cfg p v t).trans (congrArg _ (decodeWrite_unmapped v t hwf))
  | inPrt t => exact decode_read cfg 0xCB 0 t
  | inKey p t => exact (decode_read cfg p 0 t).trans (congrArg _ (decodeRead_keypad t ha (eq_of_beq hwf)))
  | inTape p t => exact (decode_read cfg p 0 t).trans (congrArg _ (decodeRead_tapein t ha (eq_of_beq hwf)))
  | inWoSeg t =>
    obtain ⟨hseg, -, -⟩ := decodeRead_writeOnly t ha
    exact (decode_read cfg 0x01 0 t).trans (congrArg _ hseg)
  | inWoDig t =>
    obtain ⟨-, hdig, -⟩ := decodeRead_writeOnly t ha
    exact (decode_read cfg 0x02 0 t).trans (congrArg _ hdig)
  | inWoPrt t =>
    obtain ⟨-, -, hprt⟩ := decodeRead_writeOnly t ha
    exact (decode_read cfg 0xCA 0 t).trans (congrArg _ hprt)
  | inUnmapped p t => exact (decode_read cfg p 0 t).trans (congrArg _ (decodeRead_unmapped t hwf))
  | reset | displayClear | click | loadTape | startRecording | synthWav => rfl

-- Encoding after decoding

theorem wellFormed_decodeWrite (cfg : Config) (p v : Byte) (t : Nat) :
    (decodeWrite cfg p v t).wellFormed cfg = true := by
  obtain ⟨-, h⟩ | ⟨-, h⟩ | ⟨-, h⟩ | ⟨-, h⟩ | ⟨hp, h⟩ | ⟨hp, h⟩ | ⟨hp, h⟩ := decodeWrite_cases cfg p v t <;>
    simp [Instr.wellFormed, *]

theorem wellFormed_decodeRead (cfg : Config) (p : Byte) (t : Nat) :
    (decodeRead cfg p t).wellFormed cfg = true := by
  obtain ⟨-, h⟩ | ⟨hp, h⟩ | ⟨hp, h⟩ | ⟨-, h⟩ | ⟨-, h⟩ | ⟨-, h⟩ | ⟨hp, h⟩ := decodeRead_cases cfg p t <;>
    simp [Instr.wellFormed, *]

theorem encode_decodeWrite (cfg : Config) (p v : Byte) (t : Nat) :
    encode (decodeWrite cfg p v t) = .bus true p.toNat v.toNat t := by
  obtain ⟨rfl, h⟩ | ⟨rfl, h⟩ | ⟨rfl, h⟩ | ⟨rfl, h⟩ | ⟨-, h⟩ | ⟨-, h⟩ | ⟨-, h⟩ := decodeWrite_cases cfg p v t <;>
    rw [h] <;> rfl

theorem encode_decodeRead (cfg : Config) (p : Byte) (t : Nat) :
    encode (decodeRead cfg p t) = .bus false p.toNat 0 t := by
  obtain ⟨rfl, h⟩ | ⟨-, h⟩ | ⟨-, h⟩ | ⟨rfl, h⟩ | ⟨rfl, h⟩ | ⟨rfl, h⟩ | ⟨-, h⟩ := decodeRead_cases cfg p t <;>
    rw [h] <;> rfl

/-- Settles O8: the operation is the one `decode_bus` names, by direction, on the masked port and value. -/
theorem everyBusRequestDecodes : Obligations.EveryBusRequestDecodes := by
  intro cfg d p v t
  refine ⟨_, decode_bus cfg d p v t, ?_⟩
  cases d with
  | false =>
    have hencode := encode_decodeRead cfg (mask8 p) t
    rw [toNat_mask8] at hencode
    exact ⟨wellFormed_decodeRead cfg (mask8 p) t, hencode⟩
  | true =>
    have hencode := encode_decodeWrite cfg (mask8 p) (mask8 v) t
    rw [toNat_mask8, toNat_mask8] at hencode
    exact ⟨wellFormed_decodeWrite cfg (mask8 p) (mask8 v) t, hencode⟩

end Sys2Proof.Machine
end

