-- ==== Sys2Proof/Proofs/Dispatcher.lean ====
section
/-! PROOF. The statements of spec/40_dispatcher.md: the fallback of port 0xCB to the keypad, the control writes without
effect, and the requests no device takes. -/

namespace Sys2Proof.Machine

-- Port 0xCB with the printer not active

/-- When port 0xCB does not answer with the printer status (R93). -/
theorem printerActive_eq_false_iff (cfg : Config) (p : Printer) :
    printerActive cfg p = false ↔
      cfg.printerPresent = false ∨ (cfg.printerActiveDef = .motor ∧ p.motorOn = false) := by
  unfold printerActive
  cases cfg.printerActiveDef with
  | attached => simp
  | motor => simp [imp_iff_not_or]

/-- `IN.PRT` with the printer not active is a keypad read (R85). -/
theorem execInPrt_inactive (T : Nat) {s : State} (h : printerActive s.cfg s.prt = false) :
    execInPrt T s = .next (readKeypad s) := by
  simp [execInPrt, h]

/-- Settles O24: under either reading the printer is not active, and `IN.KEY` is the same keypad read. -/
theorem inactivePrinterReadsAsKeypad : Obligations.InactivePrinterReadsAsKeypad := by
  intro p T T' s h
  calc exec (.inPrt T) s
      _ = .next (readKeypad s) := execInPrt_inactive T ((printerActive_eq_false_iff s.cfg s.prt).2 h)
      _ = exec (.inKey p T') s := rfl

-- Control writes without effect

/-- A control write with the motor bit clear leaves a printer whose motor is off as it is (R177). -/
theorem writeControl_motor_stays_off (cfg : Config) {p : Printer} {v : Byte} (hv : v.getLsbD 7 = false)
    (hm : p.motorOn = false) : writeControl cfg p v = p := by
  have hcmd : motorCommand v = false := hv
  simp [writeControl, hcmd, hm]

/-- `OUT.PRT` with a printer is its control write (R84). -/
theorem execOutPrt_present (v : Byte) (T : Nat) {s : State} (h : s.cfg.printerPresent = true) :
    execOutPrt v T s = .next ((s.setPrt (writeControl s.cfg s.prt v)).returns .nothing) := by
  simp [execOutPrt, h]

/-- `OUT.PRT` without a printer is a dropped write (R84, D35). -/
theorem execOutPrt_absent (v : Byte) (T : Nat) {s : State} (h : s.cfg.printerPresent = false) :
    execOutPrt v T s = .next (dropWrite 0xCA v s) := by
  simp [execOutPrt, h]

/-- Settles O28: the control write puts back the printer it found, and without a printer the write is dropped. -/
theorem controlWriteWithoutEffect : Obligations.ControlWriteWithoutEffect := by
  intro v T s
  refine ⟨fun hp hv hm => ?_, fun hp => ?_⟩
  · calc exec (.outPrt v T) s
        _ = .next ((s.setPrt (writeControl s.cfg s.prt v)).returns .nothing) := execOutPrt_present v T hp
        _ = .next ((s.setPrt s.prt).returns .nothing) := by rw [writeControl_motor_stays_off s.cfg hv hm]
        _ = .next { s with result := .nothing } := rfl
  · exact (execOutPrt_absent v T hp).trans (congrArg Host.Outcome.next (dropWrite_eq 0xCA v s))

-- Requests no device takes

/-- Settles O48: the three rows decode at their own ports, and each is a dropped write. -/
theorem readOnlyPortWritesOnlyLog : Obligations.ReadOnlyPortWritesOnlyLog := by
  intro p v T s
  refine ⟨decode_write s.cfg 0xCB v T, fun ha hp => ?_, fun ha hp => ?_,
    congrArg Host.Outcome.next (dropWrite_eq 0xCB v s), congrArg Host.Outcome.next (dropWrite_eq p v s),
    congrArg Host.Outcome.next (dropWrite_eq p v s)⟩
  · rw [decode_write, decodeWrite_keypad v T ha hp]
  · rw [decode_write, decodeWrite_tapein v T ha hp]

/-- Settles O49: the port is an unmapped one, and the read has no handler once it is logged. -/
theorem unmappedReadsLogAndReturnFF : Obligations.UnmappedReadsLogAndReturnFF := by
  intro p v T s
  refine ⟨fun hseg hdig hprt hstat hkey htape => ?_,
    congrArg Host.Outcome.next (readNoHandler_eq (s.logDiags [.unmappedRead p]))⟩
  have hp : isUnmappedPort s.cfg p = true :=
    (isUnmappedPort_iff s.cfg p).2 ⟨⟨hseg, hdig, hprt, hstat⟩, hkey, htape⟩
  rw [decode_read, decodeRead_unmapped T hp]

/-- Settles O50: the port is an unmapped one, and its write is dropped. -/
theorem unmappedWritesOnlyLog : Obligations.UnmappedWritesOnlyLog := by
  intro p v T s
  refine ⟨fun hseg hdig hprt hstat hkey htape => ?_, congrArg Host.Outcome.next (dropWrite_eq p v s)⟩
  have hp : isUnmappedPort s.cfg p = true :=
    (isUnmappedPort_iff s.cfg p).2 ⟨⟨hseg, hdig, hprt, hstat⟩, hkey, htape⟩
  rw [decode_write, decodeWrite_unmapped v T hp]

end Sys2Proof.Machine
end

