-- ==== Sys2Proof/Proofs/Display.lean ====
section
/-! PROOF. The statements of spec/41_display.md on the two port writes of the display driver: what a segment write and a
digit-select write leave. -/

namespace Sys2Proof.Machine

-- Segment writes

/-- `OUT.SEG` is the driver's segment write, at any stamp (R82). -/
theorem exec_outSeg (v : Byte) (T : Nat) (s : State) :
    exec (.outSeg v T) s = .next ((s.setDisp (writeSegments s.disp v)).returns .nothing) := rfl

/-- The machine of the segment a bit names steps with that bit (R16, R103). -/
theorem stepSegments_segOfBit (v : Byte) (g : PerSeg SegState) (i : Fin 8) :
    (stepSegments v g).get (segOfBit i) = stepSegment (v.getLsbD i) (g.get (segOfBit i)) := by
  rw [stepSegments_get, segBits_segOfBit]

/-- What the latch shows after a segment write: the new values in the selected slot, the old ones elsewhere (R103). -/
theorem writeSegments_glyph_get (d : Display) (v : Byte) (slot : Slot) (k : Seg) :
    ((writeSegments d v).glyph.get slot).get k =
      if slotOf d.ds = some slot then ((writeSegments d v).seg.get k).on else (d.glyph.get slot).get k :=
  emitGlyph_get d.ds (stepSegments v d.seg) d.glyph slot k

/-- Settles O14: the driver's segment write, machine by machine and slot by slot. -/
theorem outSegStepsEightMachines : Obligations.OutSegStepsEightMachines := by
  intro v T s
  refine ⟨_, exec_outSeg v T s, rfl, fun i => ?_, writeSegments_glyph_get s.disp v⟩
  have hstep : (writeSegments s.disp v).seg.get (segOfBit i) =
      stepSegment (v.getLsbD i) (s.disp.seg.get (segOfBit i)) := stepSegments_segOfBit v s.disp.seg i
  refine ⟨fun hset => ?_, fun hclear => ?_⟩
  · rw [hset] at hstep
    exact hstep
  · rw [hclear] at hstep
    simp only [State.returns_disp, State.setDisp_disp, hstep]
    exact ⟨stepSegment_false_zc _, stepSegment_false_on _⟩

/-- Two steps decide a machine whatever it held before: a set bit lights it, one clear bit after it does not yet
darken it, and two clear bits count to 2 from any counter (R108). -/
theorem stepSegment_twice_on (b c : Bool) (g : SegState) : (stepSegment c (stepSegment b g)).on = (b || c) := by
  cases c with
  | true => simp
  | false =>
    cases b with
    | true => rfl
    | false =>
      have hcount : min (min (g.zc + 1) 2 + 1) 2 = 2 := by omega
      rw [stepSegment_false_on, stepSegment_false_zc]
      exact if_pos hcount

/-- After two segment writes a segment is on exactly when one of them had its bit set (R108). -/
theorem writeSegments_twice_on (d : Display) (v w : Byte) (i : Fin 8) :
    ((writeSegments (writeSegments d v) w).seg.get (segOfBit i)).on = (v.getLsbD i || w.getLsbD i) := by
  simp only [writeSegments_seg, stepSegments_segOfBit, stepSegment_twice_on]

/-- Settles O15: no segment write moves the digit select, so the slot selected before the writes shows what the second
leaves on. -/
theorem twoWritesDecideSegments : Obligations.TwoWritesDecideSegments := by
  intro v w T T' s
  refine ⟨_, rfl, writeSegments_twice_on s.disp v w, fun slot i hslot => ?_⟩
  exact (writeSegments_glyph_get _ w slot (segOfBit i)).trans
    ((if_pos hslot).trans (writeSegments_twice_on s.disp v w i))

-- Digit select

/-- Settles O13: the six entries of the table, and the value that passes all six tests. -/
theorem slotTable : Obligations.SlotTable := by
  refine ⟨rfl, rfl, rfl, rfl, rfl, rfl, fun ds h0 h1 h2 h3 h4 h5 => ?_⟩
  simp only [slotOf, h0, h1, h2, h3, h4, h5, if_false]

/-- The digit select is the byte masked to its low six bits (R63, R101). -/
theorem digitSelect_eq_mask (v : Byte) : digitSelect v = (v &&& 0x3F).setWidth 6 := by
  have hmask : (0x3F : Byte).setWidth 6 = BitVec.allOnes 6 := by decide
  rw [digitSelect, BitVec.setWidth_and, hmask, BitVec.and_allOnes]

/-- A stamp no logged edge is after passes test (b) (R61). -/
theorem beforeLastEdge_eq_false {tape : Tape} {T : Nat} (h : ∀ e, tape.edgeLog.getLast? = some e → e.t ≤ T) :
    beforeLastEdge tape T = false := by
  rw [← Bool.not_eq_true, beforeLastEdge_iff]
  rintro ⟨e, he, hlt⟩
  exact absurd (h e he) (Nat.not_le_of_lt hlt)

/-- Settles O16: a write its stamp does not refuse is the driver's digit select. -/
theorem strobeStoresSixBits : Obligations.StrobeStoresSixBits := by
  intro v T s hstamp
  refine ⟨_, execOutDig_next (beforeLastEdge_eq_false hstamp), ?_, rfl⟩
  rw [← digitSelect_eq_mask]
  rfl

end Sys2Proof.Machine
end

