-- ==== Sys2Proof/Proofs/Keypad.lean ====
section
/-! PROOF. The statements of spec/42_keypad.md: clicks, keypad reads that match the latched key and reads that do not,
and the reads one click answers. -/

namespace Sys2Proof.Machine

-- Clicks

/-- Settles O20: the two ends of `CLICK`, each at its own positions. -/
theorem clickLatchesOrLogs : Obligations.ClickLatchesOrLogs := by
  intro row col s
  obtain ⟨hr, hc, e⟩ | ⟨hout, e⟩ := execClick_cases row col s
  · exact ⟨fun _ _ => e, fun hbad => by omega⟩
  · exact ⟨fun hr hc => absurd ⟨hr, hc⟩ hout, fun _ => e⟩

-- One keypad read

/-- `IN.KEY` is the keypad read, whatever its port and stamp (R86). -/
theorem exec_inKey (p : Byte) (T : Nat) (s : State) : exec (.inKey p T) s = .next (readKeypad s) := rfl

/-- A position has one key location (R122). -/
theorem eq_keyLoc {loc : Fin 36} {row : Fin 4} {col : Fin 9} (h : loc.val = row.val * 9 + col.val) :
    loc = keyLoc row col := Fin.ext h

/-- A read that does not match returns the idle bus and leaves every other element (R124). -/
theorem readKeypad_unmatched {s : State} (h : keyMatches s.cfg s.disp.ds s.keyp = false) :
    readKeypad s = { s with result := .byte 0xFF } := by
  obtain ⟨hafter, hreq, hbyte⟩ := keypad_unmatched h
  rw [readKeypad_eq, hafter, hreq, hbyte]
  simp

/-- A read that matches counts the hold, makes the key's request, and returns a byte (R123). -/
theorem readKeypad_matched {s : State} (h : keyMatches s.cfg s.disp.ds s.keyp = true) :
    readKeypad s =
      { s with
        keyp := holdStep s.keyp
        cpuReq := s.cpuReq ++ (keyRequest s.cfg (keyLoc s.keyp.keyRow s.keyp.keyCol)).toList
        result := .byte (if (keyRequest s.cfg (keyLoc s.keyp.keyRow s.keyp.keyCol)).isSome then 0xFF
          else (keyEntry s.cfg s.keyp).pa) } := by
  obtain ⟨hafter, hreq, hbyte⟩ := keypad_matched h
  rw [readKeypad_eq, hafter, hreq, hbyte]

/-- Settles O21: in both cases the read does not match. -/
theorem keypadIdleReadChangesNothing : Obligations.KeypadIdleReadChangesNothing := by
  intro p T s loc hloc hidle
  obtain rfl := eq_keyLoc hloc
  have hm : keyMatches s.cfg s.disp.ds s.keyp = false := by
    rw [← Bool.not_eq_true, keyMatches_iff, not_and_or, Bool.not_eq_true]
    exact hidle
  rw [exec_inKey, readKeypad_unmatched hm]

/-- The countdown moves neither the row nor the column (R125). -/
theorem holdStep_frame (k : Keypad) :
    holdStep k = { k with keyLatch := (holdStep k).keyLatch, keyHold := (holdStep k).keyHold } := by
  unfold holdStep; split <;> rfl

/-- The keys that make no request (R126). -/
theorem keyRequest_ordinary (cfg : Config) {loc : Fin 36} (h0 : loc.val ≠ 0) (h18 : loc.val ≠ 18) (h9 : loc.val ≠ 9) :
    keyRequest cfg loc = none := by
  simp [keyRequest, Fin.ext_iff, h0, h18, h9]

/-- Settles O22: the read is `readKeypad_matched`; the countdown's two ends give the hold, and the key's location its
request. -/
theorem keypadMatchingReadActs : Obligations.KeypadMatchingReadActs := by
  intro p T s loc hloc hlatch hstrobe
  have hloc := eq_keyLoc hloc
  have hm : keyMatches s.cfg s.disp.ds s.keyp = true := by
    subst hloc
    exact (keyMatches_iff ..).2 ⟨hlatch, hstrobe⟩
  rw [exec_inKey, readKeypad_matched hm, keyEntry, ← hloc]
  refine ⟨_, rfl, ?_, fun hhold => ?_, fun hhold => ?_, fun h => ?_, fun h => ?_, fun h => ?_, fun h0 h18 h9 => ?_⟩
  · rw [← holdStep_frame]
  · simp [holdStep_holding hhold, hlatch]
  · simp [holdStep_releasing hhold]
  · obtain rfl : loc = 0 := Fin.ext h
    exact ⟨rfl, rfl⟩
  · obtain rfl : loc = 18 := Fin.ext h
    exact ⟨rfl, rfl⟩
  · obtain rfl : loc = 9 := Fin.ext h
    exact ⟨rfl, rfl⟩
  · simp [keyRequest_ordinary s.cfg h0 h18 h9]

-- The reads of one click

/-- The scanner after `n` matching reads of a click that found the countdown at 4 (R125). -/
def heldKey (k : Keypad) (n : Nat) : Keypad :=
  { k with keyLatch := decide (n < 5), keyHold := if n < 5 then 4 - (n : Int) else 4 }

theorem heldKey_zero {k : Keypad} (hhold : k.keyHold = 4) (hlatch : k.keyLatch = true) : heldKey k 0 = k := by
  cases k
  cases hhold
  cases hlatch
  rfl

/-- The countdown goes on for four reads and releases the key at the fifth (R125). -/
theorem holdStep_heldKey (k : Keypad) {n : Nat} (h : n < 5) : holdStep (heldKey k n) = heldKey k (n + 1) := by
  have hhold : (heldKey k n).keyHold = 4 - n := if_pos h
  by_cases h4 : n = 4
  · subst h4
    exact holdStep_releasing (by omega)
  · have hlt : n + 1 < 5 := by omega
    rw [holdStep_holding (by omega), hhold]
    simp [heldKey, h, hlt]
    omega

/-- A released key stays as it is. -/
theorem heldKey_released (k : Keypad) {n : Nat} (h : 5 ≤ n) : heldKey k (n + 1) = heldKey k n := by
  simp [heldKey, show ¬ n < 5 by omega, show ¬ n + 1 < 5 by omega]

/-- With the strobe at the key's wiring, a read matches just while the latch is up (R124). -/
theorem keyMatches_heldKey {cfg : Config} {ds : Strobe} {k : Keypad}
    (h : ds.setWidth 8 &&& (keyEntry cfg k).pc = (keyEntry cfg k).pc) (n : Nat) :
    keyMatches cfg ds (heldKey k n) = decide (n < 5) := by
  rw [Bool.eq_iff_iff, keyMatches_iff]
  exact and_iff_left h

/-- The requests `n` reads of a click make: the key's, once by each of the first five (R126, D15). -/
def clickRequests (cfg : Config) (k : Keypad) (n : Nat) : List CpuReq :=
  (List.replicate (min n 5) (keyRequest cfg (keyLoc k.keyRow k.keyCol)).toList).flatten

theorem clickRequests_acting (cfg : Config) (k : Keypad) {n : Nat} (h : n < 5) :
    clickRequests cfg k (n + 1) = clickRequests cfg k n ++ (keyRequest cfg (keyLoc k.keyRow k.keyCol)).toList := by
  have hcount : min (n + 1) 5 = min n 5 + 1 := by omega
  rw [clickRequests, hcount, List.replicate_succ', List.flatten_concat, clickRequests]

theorem clickRequests_released (cfg : Config) (k : Keypad) {n : Nat} (h : 5 ≤ n) :
    clickRequests cfg k (n + 1) = clickRequests cfg k n := by
  have hcount : min (n + 1) 5 = min n 5 := by omega
  rw [clickRequests, hcount, clickRequests]

/-- The state `n` reads after a click at `s`, the last of them returning `r`. -/
def afterReads (s : State) (n : Nat) (r : Result) : State :=
  { s with keyp := heldKey s.keyp n, cpuReq := s.cpuReq ++ clickRequests s.cfg s.keyp n, result := r }

/-- One more read, acting on the key or past its release. -/
theorem readKeypad_afterReads {s : State}
    (h : s.disp.ds.setWidth 8 &&& (keyEntry s.cfg s.keyp).pc = (keyEntry s.cfg s.keyp).pc) (n : Nat) (r : Result) :
    ∃ r', readKeypad (afterReads s n r) = afterReads s (n + 1) r' := by
  refine ⟨(readKeypad (afterReads s n r)).result, ?_⟩
  have hm : keyMatches s.cfg s.disp.ds (heldKey s.keyp n) = decide (n < 5) := keyMatches_heldKey h n
  by_cases hn : n < 5
  · rw [readKeypad_matched (hm.trans (decide_eq_true hn)), afterReads, afterReads, holdStep_heldKey s.keyp hn,
      clickRequests_acting s.cfg s.keyp hn, ← List.append_assoc]
    rfl
  · rw [readKeypad_unmatched (hm.trans (decide_eq_false hn)), afterReads, afterReads,
      heldKey_released s.keyp (Nat.le_of_not_lt hn), clickRequests_released s.cfg s.keyp (Nat.le_of_not_lt hn)]

/-- Reads in a row from any point of a click. -/
theorem execAll_inKey_afterReads (p : Byte) (T : Nat) {s : State}
    (h : s.disp.ds.setWidth 8 &&& (keyEntry s.cfg s.keyp).pc = (keyEntry s.cfg s.keyp).pc) (n m : Nat) (r : Result) :
    ∃ r', execAll (List.replicate n (.inKey p T)) (afterReads s m r) = .next (afterReads s (m + n) r') := by
  induction n generalizing m r with
  | zero => exact ⟨r, rfl⟩
  | succ n ih =>
    obtain ⟨r₁, hread⟩ := readKeypad_afterReads h m r
    obtain ⟨r₂, hreads⟩ := ih (m + 1) r₁
    refine ⟨r₂, ?_⟩
    calc execAll (List.replicate (n + 1) (.inKey p T)) (afterReads s m r)
        _ = execAll (List.replicate n (.inKey p T)) (readKeypad (afterReads s m r)) := rfl
        _ = .next (afterReads s (m + (n + 1)) r₂) := by rw [hread, hreads, Nat.add_right_comm, Nat.add_assoc]

/-- Settles O23: the click starts the count at read 0, and `afterReads` holds the latch, the countdown and the
requests. -/
theorem fiveMatchingReadsPerClick : Obligations.FiveMatchingReadsPerClick := by
  intro p T n s hhold hlatch hstrobe
  have hstart : afterReads s 0 s.result = s := by simp [afterReads, heldKey_zero hhold hlatch, clickRequests]
  obtain ⟨r, hreads⟩ := execAll_inKey_afterReads p T hstrobe n 0 s.result
  rw [hstart, Nat.zero_add] at hreads
  exact ⟨afterReads s n r, hreads, rfl, rfl, rfl⟩

end Sys2Proof.Machine
end

