-- ==== Sys2Proof/Proofs/Tape.lean ====
section
/-! PROOF. The statements of spec/43_tape.md: the timing over the rationals, playback, the edge log, the Intel-HEX
reader and the WAV file, with the port 0x02 write of spec/40_dispatcher.md that feeds the log. -/

namespace Sys2Proof.Machine

-- Half periods, byte times and spans over the rationals

/-- `floorDiv` is the floor of the quotient over the rationals (R149, D17). -/
theorem floorDiv_eq_floor (n : Nat) (q : Ratio) : (floorDiv n q : Int) = ⌊(n : Rat) / q.toRat⌋ := by
  rw [Ratio.toRat, div_div_eq_mul_div, ← Nat.cast_mul, Rat.floor_natCast_div_natCast, floorDiv, Int.natCast_ediv]

/-- Settles O11: a half period is the clock over twice the tone's frequency, rounded. -/
theorem halfPeriodsAreRounded : Obligations.HalfPeriodsAreRounded := by
  intro cfg hd
  refine ⟨?_, ?_⟩
  · rw [half2k_eq_floor hd, div_div]
    norm_num
  · rw [half1k, roundDiv_eq_floor (by decide) hd, div_div]
    norm_num

/-- `BYTE_T` is ten bit times (R140). -/
theorem byteT_toRat (cfg : Config) : (byteT cfg).toRat = cfg.avgBitT.toRat * 10 := by
  simp [Ratio.toRat, byteT, Config.bitsPerByteTape, mul_div_right_comm]

/-- The samples of a span over the rationals (R155). -/
theorem samplesIn_eq_floor (cfg : Config) (dt : Nat) :
    (samplesIn cfg dt : Int) = ⌊(dt : Rat) * 44100 / cfg.clockHz.toRat⌋ := by
  rw [samplesIn, floorDiv_eq_floor, Nat.cast_mul]
  rfl

-- Playback

/-- The level is high in the even half periods, counted over the rationals (R147). -/
theorem levelHigh_iff (cfg : Config) (elapsed : Nat) :
    levelHigh cfg elapsed = true ↔ ⌊(elapsed : Rat) / (half2k cfg : Rat)⌋ % 2 = 0 := by
  rw [Rat.floor_natCast_div_natCast, levelHigh, beq_iff_eq]
  omega

/-- A read at or past the last byte's time finds the idle level (R147). -/
theorem playbackByte_past {cfg : Config} {tape : Tape} {elapsed : Nat}
    (h : (tape.sourceBytes.length : Int) ≤ ⌊(elapsed : Rat) / (cfg.avgBitT.toRat * 10)⌋) :
    playbackByte cfg tape elapsed = 0xFF := by
  rw [← byteT_toRat, ← floorDiv_eq_floor, Nat.cast_le] at h
  exact if_pos h

/-- A read within the tape finds the level of its half period (R147). -/
theorem playbackByte_within {cfg : Config} {tape : Tape} {elapsed : Nat}
    (h : ⌊(elapsed : Rat) / (cfg.avgBitT.toRat * 10)⌋ < (tape.sourceBytes.length : Int)) :
    playbackByte cfg tape elapsed = if ⌊(elapsed : Rat) / (half2k cfg : Rat)⌋ % 2 = 0 then 0x80 else 0x00 := by
  rw [← byteT_toRat, ← floorDiv_eq_floor, Nat.cast_lt] at h
  simp only [← levelHigh_iff]
  exact if_neg (Nat.not_le_of_lt h)

/-- Settles O37: a stamp test (a) does not catch takes the origin and plays the byte at the time since it. -/
theorem inTapeReadsLevel : Obligations.InTapeReadsLevel := by
  intro p T s _ hstamp
  have htest : beforeOrigin s.tape T = false := by
    rw [← Bool.not_eq_true, beforeOrigin_iff]
    exact fun ⟨htaken, hlt⟩ => absurd (hstamp htaken) (Nat.not_le_of_lt hlt)
  have horigin : (takeOrigin s.tape T).playbackOriginT =
      if s.tape.originPending then T else s.tape.playbackOriginT := by
    rw [takeOrigin_eq]
  refine ⟨_, readBitByte s.cfg s.tape T, _, execInTape_next (p := p) htest, ?_, horigin, playbackByte_past,
    playbackByte_within⟩
  rw [takeOrigin_eq]
  rfl

-- The edge log

/-- The edge log after a level equal to the last logged one (R150). -/
theorem recordEdge_edgeLog_same {tape : Tape} {v : Byte} {T : Nat} {e : Edge} (h : tape.edgeLog.getLast? = some e)
    (hl : e.level = outputLevel v) : (recordEdge tape v T).edgeLog = tape.edgeLog := by
  rw [recordEdge_same h hl]

/-- The edge log after a level that differs from the last logged one, or a first one (R150, D21). -/
theorem recordEdge_edgeLog_new {tape : Tape} {v : Byte} {T : Nat}
    (h : ∀ e, tape.edgeLog.getLast? = some e → e.level ≠ outputLevel v) :
    (recordEdge tape v T).edgeLog = tape.edgeLog ++ [⟨outputLevel v, T⟩] := by
  rw [recordEdge_new h]

/-- What a port 0x02 write leaves that its stamp does not refuse (R83, R150, R151). -/
theorem exec_outDig {v : Byte} {T : Nat} {s : State} (h : ∀ e, s.tape.edgeLog.getLast? = some e → e.t ≤ T) :
    exec (.outDig v T) s = .next { s with
      disp := { s.disp with ds := digitSelect v }
      tape := { s.tape with edgeLog := (recordEdge s.tape v T).edgeLog, toneLevel := outputLevel v }
      result := .nothing } := by
  have hlog : (recordEdge (setTone s.tape v) v T).edgeLog = (recordEdge s.tape v T).edgeLog :=
    (recordEdge_edgeLog _ v T).trans (recordEdge_edgeLog s.tape v T).symm
  refine (execOutDig_next (beforeLastEdge_eq_false h)).trans ?_
  rw [recordEdge_eq, hlog]
  rfl

/-- Settles O17: the frame of a write, and its level against the last logged one. -/
theorem outDigSelectsAndRecords : Obligations.OutDigSelectsAndRecords := by
  intro v T s hstamp
  refine ⟨_, exec_outDig hstamp, rfl, fun i hi => ?_, fun ⟨e, hlast, hlevel⟩ => ?_, fun hlevel => ?_⟩
  · simp [digitSelect, hi]
  · exact recordEdge_edgeLog_same hlast hlevel
  · exact recordEdge_edgeLog_new hlevel

/-- The edge a port 0x02 write would log (R150). -/
def edgeOf (w : Byte × Nat) : Edge := ⟨w.1.getLsbD 7, w.2⟩

/-- The operation that makes a port 0x02 write (R83). -/
def digWrite (w : Byte × Nat) : Instr := .outDig w.1 w.2

/-- Writes behind a last logged edge `e`, stamped in order and none before `e`, leave what destuttering keeps of them
(R150, R152). -/
theorem execAll_digWrite_edgeLog {ws : List (Byte × Nat)} {s : State} {pre : List Edge} {e : Edge}
    (hlog : s.tape.edgeLog = pre ++ [e]) (hafter : ∀ w ∈ ws, e.t ≤ w.2)
    (hsorted : ws.Pairwise (fun x y => x.2 ≤ y.2)) :
    ∃ t : State, execAll (ws.map digWrite) s = .next t ∧
      t.tape.edgeLog = pre ++ (ws.map edgeOf).destutter' (fun e e' => e.level ≠ e'.level) e := by
  induction ws generalizing s pre e with
  | nil => exact ⟨s, rfl, hlog⟩
  | cons w ws ih =>
    obtain ⟨hw, hws⟩ := List.pairwise_cons.1 hsorted
    have hlast : s.tape.edgeLog.getLast? = some e := by simp [hlog]
    have hexec := exec_outDig (v := w.1) (T := w.2) (s := s) fun e' he' => by
      obtain rfl : e = e' := Option.some.inj (hlast.symm.trans he')
      exact hafter w (by simp)
    simp only [List.map_cons, execAll, digWrite, hexec]
    by_cases hlevel : e.level = (edgeOf w).level
    · rw [List.destutter'_cons_neg _ (not_not.2 hlevel)]
      refine ih ?_ (fun w' hw' => hafter w' (by simp [hw'])) hws
      rw [← hlog]
      exact recordEdge_edgeLog_same hlast hlevel
    · rw [List.destutter'_cons_pos _ hlevel, List.append_cons]
      refine ih ?_ hw hws
      rw [← hlog]
      refine recordEdge_edgeLog_new fun e' he' => ?_
      rwa [← Option.some.inj (hlast.symm.trans he')]

/-- The first write to an empty log is logged (R150, D21). -/
theorem exec_outDig_first (v : Byte) (T : Nat) {s : State} (h : s.tape.edgeLog = []) :
    ∃ t : State, exec (.outDig v T) s = .next t ∧ t.tape.edgeLog = [⟨v.getLsbD 7, T⟩] := by
  have hnone : s.tape.edgeLog.getLast? = none := by simp [h]
  refine ⟨_, exec_outDig fun e he => by simp [hnone] at he, ?_⟩
  have hlog := recordEdge_edgeLog_new (tape := s.tape) (v := v) (T := T) fun e he => by simp [hnone] at he
  rwa [h] at hlog

/-- One edge more than there are changes of level in a run of writes (R152). -/
theorem destutter'_level_length (ws : List (Byte × Nat)) {w : Byte × Nat} {e : Edge} (h : e.level = w.1.getLsbD 7) :
    ((ws.map edgeOf).destutter' (fun e e' => e.level ≠ e'.level) e).length =
      1 + (((w :: ws).zip ws).filter fun x => x.1.1.getLsbD 7 != x.2.1.getLsbD 7).length := by
  induction ws generalizing w e with
  | nil => rfl
  | cons w' ws ih =>
    simp only [List.map_cons, List.zip_cons_cons]
    by_cases hlevel : e.level = (edgeOf w').level
    · rw [List.destutter'_cons_neg _ (not_not.2 hlevel), ih hlevel,
        List.filter_cons_of_neg (by simpa [h, edgeOf] using hlevel)]
    · rw [List.destutter'_cons_pos _ hlevel, List.length_cons, ih rfl,
        List.filter_cons_of_pos (by simpa [h, edgeOf] using hlevel), List.length_cons]
      omega

/-- Settles O40: the first write is logged, and the log of the others is their destuttering behind it. -/
theorem edgeLogKeepsLevelChanges : Obligations.EdgeLogKeepsLevelChanges := by
  intro w ws s hempty hchain
  have : IsTrans (Byte × Nat) (fun x y => x.2 ≤ y.2) := ⟨fun _ _ _ => Nat.le_trans⟩
  obtain ⟨hw, hws⟩ := List.pairwise_cons.1 (List.isChain_iff_pairwise.1 hchain)
  obtain ⟨s₁, hfirst, hlog⟩ := exec_outDig_first w.1 w.2 hempty
  obtain ⟨t, hrest, hedges⟩ := execAll_digWrite_edgeLog (pre := []) (e := edgeOf w) hlog hw hws
  refine ⟨t, ?_, hedges, hedges ▸ destutter'_level_length ws rfl⟩
  simp only [List.map_cons, execAll, hfirst]
  exact hrest

-- Host commands

/-- Settles O33: the selector and the meaning, clause by clause. -/
theorem loadTapeReplacesTape : Obligations.LoadTapeReplacesTape := fun _ _ _ _ => ⟨rfl, rfl⟩

/-- Settles O41: the log is empty after the operation, so the write behind it is the first one. -/
theorem startRecordingEmptiesLog : Obligations.StartRecordingEmptiesLog := by
  intro row col text v T s
  obtain ⟨t, hwrite, hlog⟩ :=
    exec_outDig_first v T (s := { s with tape := startLog s.tape, result := .nothing }) rfl
  refine ⟨rfl, rfl, t, ?_, hlog⟩
  calc execAll [.startRecording, .outDig v T] s
      _ = execAll [.outDig v T] { s with tape := startLog s.tape, result := .nothing } := rfl
      _ = .next t := by simp only [execAll, hwrite]

-- The text and its lines

/-- Lines joined by line feeds split into the same lines (R144). -/
theorem splitLines_joinLines {lines : List (List Char)} (hne : lines ≠ []) (hlf : ∀ l ∈ lines, '\n' ∉ l) :
    splitLines (joinLines lines) = lines := by
  induction lines with
  | nil => exact absurd rfl hne
  | cons l ls ih =>
    have hl : '\n' ∉ l := hlf l (by simp)
    cases ls with
    | nil => exact splitLines_of_noLF hl
    | cons l' ls =>
      rw [joinLines, splitLines_append hl, ih (by simp) fun x hx => hlf x (by simp [hx])]

/-- The bytes of a list of lines are each line's, in order, whatever the first index (R144). -/
theorem extractLines_fst (i : Nat) (lines : List (List Char)) :
    (extractLines i lines).1 = lines.flatMap fun l => (recordBytes (trimLine l)).getD [] := by
  induction lines generalizing i with
  | nil => rfl
  | cons l ls ih => rw [extractLines_cons_fst, ih, List.flatMap_cons]

/-- The diagnostics of a list of lines are the malformed ones' indices, in order (R144). -/
theorem extractLines_snd (i : Nat) (lines : List (List Char)) :
    (extractLines i lines).2 =
      ((lines.zipIdx i).filter fun x => (recordBytes (trimLine x.1)).isNone).map fun x => .badHexLine x.2 := by
  induction lines generalizing i with
  | nil => rfl
  | cons l ls ih =>
    rw [extractLines_cons_snd, ih, List.zipIdx_cons, List.filter_cons]
    cases recordBytes (trimLine l) <;> rfl

/-- Settles O35: the text's lines are the ones joined, and each is read alone. -/
theorem eachLineContributesAlone : Obligations.EachLineContributesAlone := by
  intro lines hne hlf
  rw [extractData, splitLines_joinLines hne hlf]
  exact ⟨extractLines_fst 0 lines, extractLines_snd 0 lines⟩

-- Digits, pairs of digits and trimming

/-- The digits by their values: 0 to 9, A to F, a to f (R144). -/
theorem hexDigit_cases {c : Char} {n : Nat} (h : hexDigit c = some n) :
    n < 16 ∧ (c = hexChar n ∨ (10 ≤ n ∧ c = Char.ofNat (87 + n))) := by
  have hc : c = Char.ofNat c.toNat := (Char.ofNat_toNat c).symm
  simp only [hexDigit] at h
  split at h
  next hdigit =>
    obtain rfl := Option.some.inj h
    refine ⟨by omega, .inl ?_⟩
    rw [hexChar, if_pos (by omega), Nat.add_sub_cancel' hdigit.1, ← hc]
  next =>
    split at h
    next hupper =>
      obtain rfl := Option.some.inj h
      refine ⟨by omega, .inl ?_⟩
      rw [hexChar, if_neg (by omega), Nat.add_sub_cancel' (by omega), ← hc]
    next =>
      split at h
      next hlower =>
        obtain rfl := Option.some.inj h
        refine ⟨by omega, .inr ⟨by omega, ?_⟩⟩
        rw [Nat.add_sub_cancel' (by omega), ← hc]
      next => cases h

/-- An upper-case digit reads as its value (R143). -/
theorem hexDigit_hexChar {n : Nat} (h : n < 16) : hexDigit (hexChar n) = some n := by
  have hall : ∀ n < 16, hexDigit (hexChar n) = some n := by decide
  exact hall n h

/-- A pair of digits is one byte, high digit first (R143). -/
theorem hexBytes_cons_cons {h l : Char} {x y : Nat} (rest : List Char) (hh : hexDigit h = some x)
    (hl : hexDigit l = some y) :
    hexBytes (h :: l :: rest) = (hexBytes rest).map (BitVec.ofNat 8 (16 * x + y) :: ·) := by
  rw [hexBytes, hh, hl]
  cases hexBytes rest <;> rfl

/-- Trimming takes trimmed characters off both ends of a line that neither starts nor ends with one (R144). -/
theorem trimLine_append {pre l post : List Char} (hpad : ∀ c ∈ pre ++ post, isTrimmed c = true)
    (hends : ∀ c, l.head? = some c ∨ l.getLast? = some c → isTrimmed c = false) :
    trimLine (pre ++ l ++ post) = l := by
  cases l with
  | nil =>
    have hall : (pre ++ post).dropWhile isTrimmed = [] := by simpa using dropWhile_trimmed hpad (l := []) (by simp)
    simp [trimLine, hall]
  | cons c cs =>
    have hfront : (pre ++ (c :: cs ++ post)).dropWhile isTrimmed = c :: cs ++ post :=
      dropWhile_trimmed (fun x hx => hpad x (List.mem_append_left _ hx)) fun x hx => hends x (.inl hx)
    have hback : (post.reverse ++ (c :: cs).reverse).dropWhile isTrimmed = (c :: cs).reverse :=
      dropWhile_trimmed (fun x hx => hpad x (List.mem_append_right _ (List.mem_reverse.1 hx))) fun x hx =>
        hends x (.inr (List.head?_reverse ▸ hx))
    rw [trimLine, List.append_assoc, hfront, List.reverse_append, hback, List.reverse_reverse]

/-- A table whose entries read as their places gives the value of each of its characters (R144). -/
theorem hexDigit_of_getElem? {table : List Char} {n : Nat} {c : Char}
    (htable : table.map hexDigit = (List.range 16).map some) (h : table[n]? = some c) : hexDigit c = some n := by
  have hentry : ((List.range 16).map some)[n]? = some (hexDigit c) := by rw [← htable, List.getElem?_map, h]; rfl
  obtain ⟨m, hm, hvalue⟩ : ∃ m, (List.range 16)[n]? = some m ∧ some m = hexDigit c := by simpa using hentry
  rw [← hvalue, (List.getElem?_eq_some_iff.1 hm).2.symm, List.getElem_range]

/-- Settles O59: the digits by their values and by their places, then the pairs and the trimming of any line. -/
theorem hexDigitsAndTrimming : Obligations.HexDigitsAndTrimming := by
  refine ⟨fun c n => ⟨fun h => ?_, fun h => ?_⟩, fun h l x y rest => hexBytes_cons_cons rest, ?_⟩
  · obtain ⟨hn, rfl | ⟨hlow, rfl⟩⟩ := hexDigit_cases h
    · left
      interval_cases n <;> rfl
    · right
      interval_cases n <;> rfl
  · exact h.elim (hexDigit_of_getElem? (by decide)) (hexDigit_of_getElem? (by decide))
  · intro pre l post hpad hends
    refine trimLine_append (fun c hc => (isTrimmed_iff c).2 (hpad c hc)) fun c hc => ?_
    rw [← Bool.not_eq_true, isTrimmed_iff]
    simpa only [not_or] using hends c hc

-- Malformed lines

/-- Digits read as bytes, with their pairs split at a whole number of bytes (R143). -/
theorem hexBytes_take_drop {xs : List Char} {bs : List Byte} (h : hexBytes xs = some bs) (k : Nat) :
    hexBytes (xs.take (2 * k)) = some (bs.take k) ∧ hexBytes (xs.drop (2 * k)) = some (bs.drop k) := by
  have hlen := hexBytes_length h
  by_cases hk : k ≤ bs.length
  · have hdigits := hexBytes_digits h
    obtain ⟨front, hfront, hn⟩ := hexBytes_of_digits k (xs := xs.take (2 * k)) (by rw [List.length_take]; omega)
      fun c hc => hdigits c (List.mem_of_mem_take hc)
    have hsplit := hexBytes_append hfront (xs.drop (2 * k))
    rw [List.take_append_drop, h] at hsplit
    obtain ⟨back, hback, rfl⟩ := Option.map_eq_some_iff.1 hsplit.symm
    exact ⟨by rw [hfront, ← hn, List.take_left], by rw [hback, ← hn, List.drop_left]⟩
  · rw [List.take_of_length_le (by omega), List.take_of_length_le (by omega), List.drop_of_length_le (by omega),
      List.drop_of_length_le (by omega)]
    exact ⟨h, rfl⟩

/-- `n` pairs in front read as bytes just when they are there and all are digits (R143). -/
theorem hexBytes_take_iff (n : Nat) (xs : List Char) :
    (∃ bs, hexBytes (xs.take (2 * n)) = some bs ∧ bs.length = n) ↔
      ¬ (xs.length < 2 * n ∨ ∃ c ∈ xs.take (2 * n), hexDigit c = none) := by
  push Not
  refine ⟨fun ⟨bs, hbs, hn⟩ => ⟨?_, fun c hc => ?_⟩, fun ⟨hlen, hdigits⟩ => ?_⟩
  · have := hexBytes_length hbs
    rw [List.length_take] at this
    omega
  · exact Option.isSome_iff_ne_none.1 (hexBytes_digits hbs c hc)
  · exact hexBytes_of_digits n (by rw [List.length_take]; omega) fun c hc =>
      Option.isSome_iff_ne_none.2 (hdigits c hc)

/-- A payload is what its pairs read as, when they are as many as the record says (R144). -/
theorem payloadBytes_eq_some_iff (ll : Nat) (rest : List Char) (bs : List Byte) :
    payloadBytes ll rest = some bs ↔ hexBytes (rest.take (2 * ll)) = some bs ∧ bs.length = ll := by
  unfold payloadBytes
  cases hexBytes (rest.take (2 * ll)) with
  | none => simp
  | some bs' =>
    rw [Option.ite_none_right_eq_some, and_comm]
    refine and_congr_right fun h => ?_
    rw [Option.some.inj h]

/-- A payload is malformed when it is too short or holds a character that is no digit (R144). -/
theorem payloadBytes_eq_none_iff (ll : Nat) (rest : List Char) :
    payloadBytes ll rest = none ↔ rest.length < 2 * ll ∨ ∃ c ∈ rest.take (2 * ll), hexDigit c = none := by
  rw [← not_iff_not, ← hexBytes_take_iff, ← ne_eq, Option.ne_none_iff_exists']
  simp only [payloadBytes_eq_some_iff]

/-- A line with good fields contributes by its type (R144). -/
theorem recordBytes_of_fields {rest : List Char} {ll ah al tt : Byte}
    (h : hexBytes (rest.take 8) = some [ll, ah, al, tt]) :
    recordBytes (':' :: rest) = if tt = 0x00 then payloadBytes ll.toNat (rest.drop 8) else some [] := by
  simp [recordBytes, h]

/-- A line whose fields do not read as four bytes is malformed (R144, D24). -/
theorem recordBytes_of_no_fields {rest : List Char}
    (h : ¬ ∃ fields, hexBytes (rest.take 8) = some fields ∧ fields.length = 4) : recordBytes (':' :: rest) = none := by
  simp only [recordBytes, if_true]
  split
  next ll ah al tt hfields => exact absurd ⟨_, hfields, rfl⟩ h
  next => rfl

/-- The length and the type of good fields are their first and their last pair (R143). -/
theorem hexBytes_of_fields {rest : List Char} {ll ah al tt : Byte}
    (h : hexBytes (rest.take 8) = some [ll, ah, al, tt]) :
    hexBytes (rest.take 2) = some [ll] ∧ hexBytes ((rest.drop 6).take 2) = some [tt] := by
  have hlength := (hexBytes_take_drop h 1).1
  have htype := (hexBytes_take_drop h 3).2
  rw [List.take_take] at hlength
  rw [List.drop_take] at htype
  exact ⟨hlength, htype⟩

/-- A line with good fields is malformed when it is of type 0 and its payload is (R144, D24). -/
theorem recordBytes_eq_none_of_fields {rest : List Char} {ll ah al tt : Byte}
    (h : hexBytes (rest.take 8) = some [ll, ah, al, tt]) :
    recordBytes (':' :: rest) = none ↔
      tt = 0x00 ∧ (rest.length < 8 + 2 * ll.toNat ∨ ∃ c ∈ (rest.drop 8).take (2 * ll.toNat), hexDigit c = none) := by
  have hlen : ¬ rest.length < 8 := fun hshort => ((hexBytes_take_iff 4 rest).1 ⟨_, h, rfl⟩) (.inl hshort)
  have hdrop : (rest.drop 8).length < 2 * ll.toNat ↔ rest.length < 8 + 2 * ll.toNat := by
    rw [List.length_drop]
    omega
  rw [recordBytes_of_fields h, ← hdrop, ← payloadBytes_eq_none_iff]
  by_cases htype : tt = 0x00
  · rw [if_pos htype, and_iff_right htype]
  · rw [if_neg htype]
    exact iff_of_false (Option.some_ne_none _) fun h => htype h.1

/-- Settles O36: a line with a colon has fields that read as four bytes, or is malformed for them. -/
theorem malformedLineTest : Obligations.MalformedLineTest := by
  refine ⟨rfl, fun c rest hc => if_neg hc, fun rest => ?_, fun rest ll ah al tt h => ?_⟩
  · by_cases hfields : ∃ fields, hexBytes (rest.take 8) = some fields ∧ fields.length = 4
    · have hgood := (hexBytes_take_iff 4 rest).1 hfields
      obtain ⟨fields, h, hfour⟩ := hfields
      match fields, hfour with
      | [ll, ah, al, tt], _ =>
        obtain ⟨hlength, htype⟩ := hexBytes_of_fields h
        rw [recordBytes_eq_none_of_fields h, or_iff_right hgood, hlength, htype]
        simp
    · exact iff_of_true (recordBytes_of_no_fields hfields)
        (.inl (not_not.1 fun hgood => hfields ((hexBytes_take_iff 4 rest).2 hgood)))
  · rw [recordBytes_of_fields h]
    refine ⟨fun htype => if_neg htype, fun htype bs hbs hn => ?_⟩
    rw [if_pos htype]
    exact (payloadBytes_eq_some_iff ..).2 ⟨hbs, hn⟩

-- Written records

/-- A written byte reads as itself (R143). -/
theorem hexBytes_byteChars_append (b : Byte) (rest : List Char) :
    hexBytes (byteChars b ++ rest) = (hexBytes rest).map (b :: ·) := by
  have hhigh : hexDigit (hexChar (b.toNat / 16)) = some (b.toNat / 16) := hexDigit_hexChar (by omega)
  have hlow : hexDigit (hexChar (b.toNat % 16)) = some (b.toNat % 16) := hexDigit_hexChar (by omega)
  have hbyte : BitVec.ofNat 8 (16 * (b.toNat / 16) + b.toNat % 16) = b := by
    rw [Nat.div_add_mod, BitVec.ofNat_toNat, BitVec.setWidth_eq]
  rw [byteChars, List.cons_append, List.cons_append, List.nil_append, hexBytes_cons_cons rest hhigh hlow, hbyte]

/-- Written bytes read as themselves (R143). -/
theorem hexBytes_flatMap_byteChars (bs : List Byte) : hexBytes (bs.flatMap byteChars) = some bs := by
  induction bs with
  | nil => rfl
  | cons b bs ih => rw [List.flatMap_cons, hexBytes_byteChars_append, ih]; rfl

/-- The bytes written behind a record's colon: the fields, the payload, the checksum (R143). -/
def recordContent (tt : Byte) (addr : BitVec 16) (bytes : List Byte) (checksum : Byte) : List Byte :=
  [BitVec.ofNat 8 bytes.length, addr.extractLsb' 8 8, addr.extractLsb' 0 8, tt] ++ (bytes ++ [checksum])

theorem hexRecord_eq (tt : Byte) (addr : BitVec 16) (bytes : List Byte) (checksum : Byte) :
    hexRecord tt addr bytes checksum = ':' :: (recordContent tt addr bytes checksum).flatMap byteChars := by
  simp [hexRecord, recordContent]

/-- A written record of type 0 contributes its payload, one of another type nothing (R143, R144). -/
theorem recordBytes_hexRecord (tt : Byte) (addr : BitVec 16) {bytes : List Byte} (checksum : Byte)
    (h : bytes.length < 256) :
    recordBytes (hexRecord tt addr bytes checksum) = some (if tt = 0x00 then bytes else []) := by
  have hread := hexBytes_flatMap_byteChars (recordContent tt addr bytes checksum)
  obtain ⟨hfields, hbehind⟩ := hexBytes_take_drop hread 4
  have hpayload := (hexBytes_take_drop hbehind bytes.length).1
  have hlength : (BitVec.ofNat 8 bytes.length).toNat = bytes.length := by simp [Nat.mod_eq_of_lt h]
  have hdata : ((recordContent tt addr bytes checksum).drop 4).take bytes.length = bytes := List.take_left
  rw [hdata] at hpayload
  rw [hexRecord_eq, recordBytes_of_fields hfields, hlength, (payloadBytes_eq_some_iff ..).2 ⟨hpayload, rfl⟩]
  split <;> rfl

/-- Digits are no white space (R144). -/
theorem not_space_of_hexDigit {c : Char} (h : (hexDigit c).isSome = true) : isTrimmed c = false ∧ c ≠ '\n' := by
  rw [← Bool.not_eq_true, isTrimmed_iff, ← not_or]
  rintro ((rfl | rfl | rfl) | rfl) <;> cases h

/-- A written record holds no white space (R143). -/
theorem hexRecord_not_space {tt : Byte} {addr : BitVec 16} {bytes : List Byte} {checksum : Byte} {c : Char}
    (h : c ∈ hexRecord tt addr bytes checksum) : isTrimmed c = false ∧ c ≠ '\n' := by
  rw [hexRecord_eq] at h
  rcases List.mem_cons.1 h with rfl | hc
  · decide
  · exact not_space_of_hexDigit (hexBytes_digits (hexBytes_flatMap_byteChars _) c hc)

/-- Trimming leaves a written record as it is (R144). -/
theorem trimLine_hexRecord (tt : Byte) (addr : BitVec 16) (bytes : List Byte) (checksum : Byte) :
    trimLine (hexRecord tt addr bytes checksum) = hexRecord tt addr bytes checksum := by
  have h := trimLine_append (pre := []) (l := hexRecord tt addr bytes checksum) (post := []) (by simp) fun c hc =>
    (hexRecord_not_space (hc.elim List.mem_of_head? List.mem_of_getLast?)).1
  rwa [List.nil_append, List.append_nil] at h

/-- Lines each of which is well formed contribute their bytes and no diagnostic (R144). -/
theorem extractLines_of_some {α : Type} {line : α → List Char} {bytes : α → List Byte} {recs : List α} (i : Nat)
    (h : ∀ r ∈ recs, recordBytes (trimLine (line r)) = some (bytes r)) :
    extractLines i (recs.map line) = (recs.flatMap bytes, []) := by
  induction recs generalizing i with
  | nil => rfl
  | cons r recs ih =>
    rw [List.map_cons, extractLines, h r (by simp), ih (i + 1) fun r' hr' => h r' (by simp [hr'])]
    rfl

/-- The payloads of the records of type 0, picked out or read record by record (R144). -/
theorem flatMap_filter_type (recs : List (Byte × BitVec 16 × List Byte × Byte)) :
    ((recs.filter fun r => r.1 == 0x00).flatMap fun r => r.2.2.1) =
      recs.flatMap fun r => if r.1 = 0x00 then r.2.2.1 else [] := by
  induction recs with
  | nil => rfl
  | cons r recs ih =>
    rw [List.filter_cons, List.flatMap_cons, ← ih]
    by_cases htype : r.1 = 0x00
    · rw [if_pos (beq_iff_eq.2 htype), if_pos htype, List.flatMap_cons]
    · rw [if_neg (beq_iff_eq.not.2 htype), if_neg htype, List.nil_append]

/-- Settles O58: a written record is its own line, trims to itself and reads by its type. -/
theorem otherRecordTypesAreIgnored : Obligations.OtherRecordTypesAreIgnored := by
  intro recs hshort
  rw [flatMap_filter_type]
  by_cases hempty : recs = []
  · subst hempty
    rfl
  · rw [extractData, splitLines_joinLines (by simpa using hempty), extractLines_of_some]
    · intro r hr
      rw [trimLine_hexRecord, recordBytes_hexRecord _ _ _ (hshort r hr)]
    · intro line hline hlf
      obtain ⟨r, -, rfl⟩ := List.mem_map.1 hline
      exact (hexRecord_not_space hlf).2 rfl

/-- Settles O34: data records are records of type 0. -/
theorem dataRecordsComeInFileOrder : Obligations.DataRecordsComeInFileOrder := by
  intro recs hshort
  have h := otherRecordTypesAreIgnored (recs.map fun r => (0x00, r)) fun r hr => by
    obtain ⟨r', hr', rfl⟩ := List.mem_map.1 hr
    exact hshort r' hr'
  rw [flatMap_filter_type, List.map_map, List.flatMap_map] at h
  exact h

-- Spans in a row

/-- The floors of two quotients add up to at most the floor of the sum's (R158). -/
theorem floorDiv_add_le (m n : Nat) (q : Ratio) : floorDiv m q + floorDiv n q ≤ floorDiv (m + n) q := by
  rw [floorDiv, floorDiv, floorDiv, Nat.add_mul]
  exact Nat.div_add_div_le_add_div ..

/-- The floor of a sum's quotient is at most one more than the floors of the two (R158). -/
theorem floorDiv_add_le_succ (m n : Nat) {q : Ratio} (hq : 0 < q.num) :
    floorDiv (m + n) q ≤ floorDiv m q + floorDiv n q + 1 := by
  rw [floorDiv, floorDiv, floorDiv, Nat.add_mul, Nat.add_div hq]
  split <;> omega

/-- The samples of two spans in a row (R155, R158). -/
theorem samplesIn_add (cfg : Config) (a b : Nat) :
    samplesIn cfg a + samplesIn cfg b ≤ samplesIn cfg (a + b) ∧
      (0 < cfg.clockHz.num → samplesIn cfg (a + b) ≤ samplesIn cfg a + samplesIn cfg b + 1) := by
  simp only [samplesIn, Nat.add_mul]
  exact ⟨floorDiv_add_le .., fun h => floorDiv_add_le_succ _ _ h⟩

-- The sample count and the spans

/-- The sample count between a log's first and last entry (R155). -/
theorem wavTotal_eq (cfg : Config) {log : List Edge} {e0 eLast : Edge} (h0 : log.head? = some e0)
    (hl : log.getLast? = some eLast) : wavTotal cfg log = samplesIn cfg (eLast.t - e0.t) := by
  simp only [wavTotal, h0, hl]

/-- The whole spans of all pairs of adjacent edges, unclipped (R155). -/
def wavSpans (cfg : Config) (log : List Edge) : List Sample :=
  (log.zip log.tail).flatMap fun x => List.replicate (samplesIn cfg (x.2.t - x.1.t)) (sampleOf x.1.level)

theorem wavSpans_cons_cons (cfg : Config) (e e' : Edge) (rest : List Edge) :
    wavSpans cfg (e :: e' :: rest) =
      List.replicate (samplesIn cfg (e'.t - e.t)) (sampleOf e.level) ++ wavSpans cfg (e' :: rest) := rfl

theorem wavSpans_length_cons_cons (cfg : Config) (e e' : Edge) (rest : List Edge) :
    (wavSpans cfg (e :: e' :: rest)).length = samplesIn cfg (e'.t - e.t) + (wavSpans cfg (e' :: rest)).length := by
  rw [wavSpans_cons_cons, List.length_append, List.length_replicate]

/-- Where the spans have room the clip does nothing, and zeros fill what they leave (R155). -/
theorem fillSamples_of_room {cfg : Config} {log : List Edge} {room : Nat} (h : (wavSpans cfg log).length ≤ room) :
    fillSamples cfg log room = wavSpans cfg log ++ List.replicate (room - (wavSpans cfg log).length) 0 := by
  fun_induction fillSamples cfg log room with
  | case1 e e' rest room n ih =>
    rw [wavSpans_length_cons_cons] at h ⊢
    have hn : n = samplesIn cfg (e'.t - e.t) := by omega
    rw [ih (by omega), hn, wavSpans_cons_cons, List.append_assoc, Nat.sub_sub]
  | case2 log room hlog =>
    cases log with
    | nil => rfl
    | cons e log =>
      cases log with
      | nil => rfl
      | cons e' rest => exact absurd rfl (hlog e e' rest)

/-- One entry more in front, at a stamp not after the next: the count grows by the new span, or by one more (R158). -/
theorem wavTotal_cons_cons (cfg : Config) {e e' : Edge} {rest : List Edge}
    (h : (e :: e' :: rest).IsChain (fun e e' => e.t ≤ e'.t)) :
    samplesIn cfg (e'.t - e.t) + wavTotal cfg (e' :: rest) ≤ wavTotal cfg (e :: e' :: rest) ∧
      (0 < cfg.clockHz.num →
        wavTotal cfg (e :: e' :: rest) ≤ samplesIn cfg (e'.t - e.t) + wavTotal cfg (e' :: rest) + 1) := by
  have : IsTrans Edge (fun e e' => e.t ≤ e'.t) := ⟨fun _ _ _ => Nat.le_trans⟩
  obtain ⟨hfirst, hrest⟩ := List.pairwise_cons.1 (List.isChain_iff_pairwise.1 h)
  have hlast : (e' :: rest).getLast? = some ((e' :: rest).getLast (by simp)) := List.getLast?_eq_some_getLast _
  have hle : e'.t ≤ ((e' :: rest).getLast (by simp)).t := by
    rcases List.mem_cons.1 (List.getLast_mem (l := e' :: rest) (by simp)) with heq | hmem
    · rw [heq]
    · exact (List.pairwise_cons.1 hrest).1 _ hmem
  have hsplit := Nat.sub_add_sub_cancel hle (hfirst e' (by simp))
  rw [wavTotal_eq cfg rfl hlast, wavTotal_eq cfg rfl (List.getLast?_cons_cons.trans hlast), ← hsplit,
    Nat.add_comm _ (e'.t - e.t)]
  exact samplesIn_add cfg _ _

/-- The spans fit the sample count (R158 (e)). -/
theorem wavSpans_length_le (cfg : Config) :
    ∀ {log : List Edge}, log.IsChain (fun e e' => e.t ≤ e'.t) → (wavSpans cfg log).length ≤ wavTotal cfg log
  | [], _ => Nat.zero_le _
  | [_], _ => Nat.zero_le _
  | _ :: _ :: _, h => by
    rw [wavSpans_length_cons_cons]
    exact (Nat.add_le_add_left (wavSpans_length_le cfg h.tail) _).trans (wavTotal_cons_cons cfg h).1

/-- Past the spans of the first two entries, each further entry adds at most one sample to the count (R158 (e)). -/
theorem wavTotal_le {cfg : Config} (hclock : 0 < cfg.clockHz.num) {e e' : Edge} {rest : List Edge}
    (h : (e :: e' :: rest).IsChain (fun e e' => e.t ≤ e'.t)) :
    wavTotal cfg (e :: e' :: rest) ≤ (wavSpans cfg (e :: e' :: rest)).length + rest.length := by
  induction rest generalizing e e' with
  | nil => rw [wavSpans_length_cons_cons, wavTotal_eq cfg rfl rfl, Nat.add_assoc]; exact Nat.le_add_right ..
  | cons e'' rest ih =>
    have hfirst := (wavTotal_cons_cons cfg h).2 hclock
    have hrest := ih h.tail
    rw [wavSpans_length_cons_cons, List.length_cons]
    omega

/-- Settles O46: the spans have room in the file, and the count exceeds their length by at most `n - 2`. -/
theorem wavClipNeverCuts : Obligations.WavClipNeverCuts := by
  intro cfg log hclock htwo hchain
  refine ⟨wavTotal cfg log - (wavSpans cfg log).length, ?_, fillSamples_of_room (wavSpans_length_le cfg hchain)⟩
  match log, htwo with
  | e :: e' :: rest, _ =>
    have := wavTotal_le hclock hchain
    simp only [List.length_cons]
    omega

-- The file

/-- The samples of a log are as many as its count (R155). -/
theorem wavSamples_length (cfg : Config) (log : List Edge) : (wavSamples cfg log).length = wavTotal cfg log :=
  fillSamples_length ..

/-- Behind the header the file is the samples (R157). -/
theorem wavFile_drop_header (cfg : Config) (log : List Edge) :
    (wavFile cfg log).drop 44 = (wavSamples cfg log).flatMap le16 :=
  List.drop_left' (wavHeader_length _)

/-- Bytes 8 to 39 of the file, the same in every file: spec/95_test_vectors.md section 2.8 (R156). -/
def wavFormat : List Byte :=
  [0x57, 0x41, 0x56, 0x45, 0x66, 0x6D, 0x74, 0x20, 0x10, 0x00, 0x00, 0x00, 0x01, 0x00, 0x01, 0x00,
   0x44, 0xAC, 0x00, 0x00, 0x88, 0x58, 0x01, 0x00, 0x02, 0x00, 0x10, 0x00, 0x64, 0x61, 0x74, 0x61]

/-- The header's four parts (R156). -/
theorem wavHeader_eq (total : Nat) :
    wavHeader total = [0x52, 0x49, 0x46, 0x46] ++ (le32 (BitVec.ofNat 32 (36 + 2 * total)) ++
      (wavFormat ++ le32 (BitVec.ofNat 32 (2 * total)))) := by
  have hformat : wavFormat = [0x57, 0x41, 0x56, 0x45] ++ ([0x66, 0x6D, 0x74, 0x20] ++ (le32 16 ++ (le16 1 ++ (le16 1 ++
      (le32 (BitVec.ofNat 32 Config.sampleRate) ++ (le32 (BitVec.ofNat 32 (2 * Config.sampleRate)) ++ (le16 2 ++
      (le16 16 ++ [0x64, 0x61, 0x74, 0x61])))))))) := by decide
  simp only [wavHeader, wavDataLen, hformat, List.append_assoc]

/-- The header's parts where they stand in the file (R156). -/
theorem wavFile_parts (cfg : Config) (log : List Edge) :
    (wavFile cfg log).take 4 = [0x52, 0x49, 0x46, 0x46] ∧
    ((wavFile cfg log).drop 4).take 4 = le32 (BitVec.ofNat 32 (36 + 2 * wavTotal cfg log)) ∧
    ((wavFile cfg log).drop 8).take 32 = wavFormat ∧
    ((wavFile cfg log).drop 40).take 4 = le32 (BitVec.ofNat 32 (2 * wavTotal cfg log)) := by
  rw [wavFile, wavHeader_eq]
  exact ⟨rfl, rfl, rfl, rfl⟩

/-- The two bytes of a level's sample (R157). -/
theorem le16_sampleOf (level : Bool) : le16 (sampleOf level) = if level then [0x80, 0x3E] else [0x80, 0xC1] := by
  cases level <;> decide

/-- Settles O45: the three values byte by byte, then the file behind its header. -/
theorem samplesAreLittleEndian : Obligations.SamplesAreLittleEndian := by
  refine ⟨le16_sampleOf true, le16_sampleOf false, by decide, by decide, by decide, fun cfg log => ?_⟩
  refine ⟨wavFile_drop_header cfg log, wavSamples_length cfg log, ?_⟩
  rw [wavFile_drop_header, flatMap_le16_length, wavSamples_length]

/-- The size test of the file over its sample count (R156). -/
theorem wavFits_iff (cfg : Config) (log : List Edge) :
    wavFits cfg log = true ↔ 36 + 2 * wavTotal cfg log < 2 ^ 32 :=
  decide_eq_true_iff

/-- `SYNTH_WAV` on two or more edges whose file fits returns it (R155, R156). -/
theorem exec_synthWav_file {s : State} (h : 2 ≤ s.tape.edgeLog.length)
    (hfits : 36 + 2 * wavTotal s.cfg s.tape.edgeLog < 2 ^ 32) :
    exec .synthWav s = .next { s with result := .file (some (wavFile s.cfg s.tape.edgeLog)) } := by
  rw [← wavFits_iff] at hfits
  obtain ⟨hfew, -⟩ | ⟨-, -, he⟩ | ⟨-, hlong, -⟩ := execSynthWav_cases s
  · omega
  · exact he
  · simp [hfits] at hlong

/-- `SYNTH_WAV` on two or more edges whose file does not fit is refused (R156). -/
theorem exec_synthWav_refused {s : State} (h : 2 ≤ s.tape.edgeLog.length)
    (hlong : 2 ^ 32 ≤ 36 + 2 * wavTotal s.cfg s.tape.edgeLog) : exec .synthWav s = .refused .wavTooLong := by
  obtain ⟨hfew, -⟩ | ⟨-, hfits, -⟩ | ⟨-, -, he⟩ := execSynthWav_cases s
  · omega
  · exact absurd ((wavFits_iff ..).1 hfits) (Nat.not_lt_of_le hlong)
  · exact he

/-- Settles O42: of the three ends the two others need two edges. -/
theorem wavNeedsTwoEdges : Obligations.WavNeedsTwoEdges := by
  intro s hfew
  obtain ⟨-, he⟩ | ⟨htwo, -⟩ | ⟨htwo, -⟩ := execSynthWav_cases s
  · exact he
  · omega
  · omega

/-- Settles O43: the count over the rationals is `wavTotal`, and the header is read off part by part. -/
theorem wavFileHasHeaderAndSamples : Obligations.WavFileHasHeaderAndSamples := by
  intro s e0 eLast total _ htwo hhead hlast htotal
  obtain rfl : total = wavTotal s.cfg s.tape.edgeLog := by
    rw [← samplesIn_eq_floor, Nat.cast_inj] at htotal
    rw [htotal, wavTotal_eq s.cfg hhead hlast]
  obtain ⟨hriff, hsize, hformat, hdata⟩ := wavFile_parts s.cfg s.tape.edgeLog
  exact ⟨fun hfits => ⟨_, exec_synthWav_file htwo hfits, wavFile_length .., hriff, hsize, hformat, hdata,
    wavFile_drop_header ..⟩, exec_synthWav_refused htwo⟩

/-- The one span of two edges is the whole file (R158 (a)). -/
theorem wavSamples_pair (cfg : Config) (e0 e1 : Edge) :
    wavSamples cfg [e0, e1] = List.replicate (wavTotal cfg [e0, e1]) (sampleOf e0.level) := by
  have htotal : wavTotal cfg [e0, e1] = samplesIn cfg (e1.t - e0.t) := wavTotal_eq cfg rfl rfl
  simp [wavSamples, fillSamples, htotal]

/-- Settles O44: all samples are the first edge's level. -/
theorem twoEdgeWavHasOneLevel : Obligations.TwoEdgeWavHasOneLevel := by
  intro s e0 e1 hlog hfits
  rw [← hlog] at hfits
  refine ⟨_, exec_synthWav_file (by simp [hlog]) hfits, ?_⟩
  rw [wavFile_drop_header, hlog, wavSamples_pair, List.flatMap_replicate, le16_sampleOf]

end Sys2Proof.Machine
end

