-- ==== Sys2Proof/Proofs/Printer.lean ====
section
/-! PROOF. The statements of spec/44_printer.md: what a control write and a status read do to the mechanism, the
watchdog, and a whole printing pass. -/

namespace Sys2Proof.Machine

-- Control writes

/-- `OUT.PRT` with a printer, the printer it leaves named (R84). -/
theorem exec_outPrt_of_writeControl {v : Byte} (T : Nat) {s : State} {p : Printer} (hp : s.cfg.printerPresent = true)
    (h : writeControl s.cfg s.prt v = p) : exec (.outPrt v T) s = .next { s with prt := p, result := .nothing } := by
  subst h
  exact execOutPrt_present v T hp

section WriteControl
variable (cfg : Config) {p : Printer} {v : Byte}

theorem writeControl_starts (hv : v.getLsbD 7 = true) (hm : p.motorOn = false) :
    writeControl cfg p v = motorStart cfg p := by
  rw [writeControl, motorCommand, hv, hm]

theorem writeControl_columns (hv : v.getLsbD 7 = true) (hm : p.motorOn = true) :
    writeControl cfg p v = columnWrite cfg p (thermalPins v) := by
  rw [writeControl, motorCommand, hv, hm]

theorem writeControl_stops (hv : v.getLsbD 7 = false) (hm : p.motorOn = true) :
    writeControl cfg p v = motorOff p := by
  rw [writeControl, motorCommand, hv, hm]

end WriteControl

-- Motor start

/-- With an empty buffer there is nothing to print (R180). -/
theorem flush_of_empty {p : Printer} (h : p.columnBuffer = []) : flush p = p := by
  cases p
  subst h
  rfl

theorem advancePaper_within {cfg : Config} {p : Printer}
    (h : p.paperY + cfg.headHeight + cfg.lineSpacing ≤ cfg.paperMaxY) :
    advancePaper cfg p = { p with paperY := p.paperY + cfg.headHeight + cfg.lineSpacing } :=
  if_neg (Nat.not_lt.2 h)

theorem advancePaper_past {cfg : Config} {p : Printer}
    (h : cfg.paperMaxY < p.paperY + cfg.headHeight + cfg.lineSpacing) :
    advancePaper cfg p = { p with paper := [], paperY := cfg.paperResetY } :=
  if_pos h

/-- Advancing the paper moves the paper alone (R173). -/
theorem advancePaper_eq (cfg : Config) (p : Printer) :
    advancePaper cfg p = { p with
      paper := (advancePaper cfg p).paper, paperY := (advancePaper cfg p).paperY } := by
  obtain h | h := Nat.lt_or_ge cfg.paperMaxY (p.paperY + cfg.headHeight + cfg.lineSpacing)
  · rw [advancePaper_past h]
  · rw [advancePaper_within h]

/-- With an empty buffer a commit is the paper's advance, and the line is new (R173). -/
theorem commitLine_of_empty (cfg : Config) {p : Printer} (h : p.columnBuffer = []) :
    commitLine cfg p = { advancePaper cfg p with lineHasData := false } := by
  have hempty : (advancePaper cfg p).columnBuffer = [] := by rw [advancePaper_eq, h]
  rw [commitLine, flush_of_empty hempty]

/-- The printer with the paper a motor start prints on: past a line with data, else where it is (R172). -/
def paperAtStart (cfg : Config) (p : Printer) : Printer :=
  if p.lineHasData then advancePaper cfg p else p

theorem paperAtStart_clean (cfg : Config) {p : Printer} (h : p.lineHasData = false) : paperAtStart cfg p = p :=
  if_neg (by simp [h])

theorem paperAtStart_data (cfg : Config) {p : Printer} (h : p.lineHasData = true) :
    paperAtStart cfg p = advancePaper cfg p :=
  if_pos h

/-- What a motor start leaves, field by field, where the column buffer is empty (R172). -/
theorem motorStart_eq (cfg : Config) {p : Printer} (h : p.columnBuffer = []) :
    motorStart cfg p = { p with
      motorOn := true, headPhase := .right, tgPulseCounter := 0, homePosition := false, skipFirst := true
      cursorX := 0, watchdog := cfg.watchdogReload, lineHasData := false
      paper := (paperAtStart cfg p).paper, paperY := (paperAtStart cfg p).paperY } := by
  cases hdata : p.lineHasData with
  | false => rw [paperAtStart_clean cfg hdata, motorStart, hdata, if_neg Bool.false_ne_true, hdata]
  | true =>
    rw [paperAtStart_data cfg hdata, motorStart, if_pos hdata, commitLine_of_empty cfg h, advancePaper_eq]

/-- Settles O25: the write is a motor start, and the paper it starts on is read off for a clean line and for the two
ends of an advance. -/
theorem controlWriteStartsMotor : Obligations.ControlWriteStartsMotor := by
  intro v T s hp hv hm hbuf
  have hstart := (writeControl_starts s.cfg hv hm).trans (motorStart_eq s.cfg hbuf)
  refine ⟨_, exec_outPrt_of_writeControl T hp hstart, rfl, fun hdata => ?_, fun hdata hy => ?_, fun hdata hy => ?_⟩
  · rw [paperAtStart_clean s.cfg hdata]; exact ⟨rfl, rfl⟩
  · rw [paperAtStart_data s.cfg hdata, advancePaper_within hy]; exact ⟨rfl, rfl⟩
  · rw [paperAtStart_data s.cfg hdata, advancePaper_past hy]; exact ⟨rfl, rfl⟩

-- Column writes

/-- The pins are the low seven bits (R64). -/
theorem thermalPins_eq_and (v : Byte) : thermalPins v = (v &&& 0x7F).setWidth 7 := by
  rw [BitVec.setWidth_and]
  exact BitVec.and_allOnes.symm

theorem thermalPins_getLsbD (v : Byte) {b : Nat} (h : b ≤ 6) : (thermalPins v).getLsbD b = v.getLsbD b := by
  simp [thermalPins, Nat.lt_succ_of_le h]

section ColumnWrite
variable (cfg : Config) {p : Printer} (pins : Column)

theorem columnWrite_skips (h : p.skipFirst = true) :
    columnWrite cfg p pins = { p with skipFirst := false, watchdog := cfg.watchdogReload } := by
  rw [columnWrite, if_pos h]

theorem columnWrite_pushes (h : p.skipFirst = false) :
    columnWrite cfg p pins = { p with
      columnBuffer := p.columnBuffer ++ [pins], lineHasData := true, watchdog := cfg.watchdogReload } := by
  rw [columnWrite, if_neg (by simp [h])]

end ColumnWrite

/-- Settles O26: the write is a column write, of the skipped column or of one pushed. -/
theorem controlWritePushesColumn : Obligations.ControlWritePushesColumn := by
  intro v T s hp hv hm
  refine exec_outPrt_of_writeControl T hp ?_
  rw [writeControl_columns s.cfg hv hm]
  cases hskip : s.prt.skipFirst with
  | true => exact columnWrite_skips s.cfg (thermalPins v) hskip
  | false =>
    rw [columnWrite_pushes s.cfg (thermalPins v) hskip, thermalPins_eq_and]
    rfl

-- Motor stop

/-- Settles O27: the write is a motor stop, and the dots are those of the plotted columns. -/
theorem controlWriteStopsAndPrints : Obligations.ControlWriteStopsAndPrints := by
  intro v T s hp hv hm
  have hstop := (writeControl_stops s.cfg hv hm).trans (motorOff_eq s.prt)
  exact ⟨_, exec_outPrt_of_writeControl T hp hstop, rfl, fun d => mem_plotColumns _ _ _ _ d⟩

-- Status reads

section Status
variable (cfg : Config) {p : Printer}

/-- At rest a status read counts nothing (R178). -/
theorem statusAfter_resting (hm : p.motorOn = false) : statusAfter p = p := by
  obtain ⟨-, e⟩ | ⟨hon, -⟩ | ⟨hon, -⟩ := statusAfter_cases p
  · exact e
  all_goals simp [hm] at hon

/-- With the watchdog at 2 or more a status read counts (R178, R179). -/
theorem statusAfter_counting (hm : p.motorOn = true) (hw : 2 ≤ p.watchdog) : statusAfter p = countRead p := by
  obtain ⟨hoff, -⟩ | ⟨-, hle, -⟩ | ⟨-, -, e⟩ := statusAfter_cases p
  · simp [hm] at hoff
  · omega
  · exact e

/-- The status read that uses up the watchdog counts and stops the motor (R179). -/
theorem statusAfter_stopping (hm : p.motorOn = true) (hw : p.watchdog = 1) :
    statusAfter p = motorOff (countRead p) := by
  obtain ⟨hoff, -⟩ | ⟨-, -, e⟩ | ⟨-, hle, -⟩ := statusAfter_cases p
  · simp [hm] at hoff
  · exact e
  · omega

theorem watchdogExpires_iff (p : Printer) : watchdogExpires p = true ↔ p.motorOn = true ∧ p.watchdog ≤ 1 := by
  simp [watchdogExpires, Nat.sub_eq_zero_iff_le]

/-- At rest TG reads 0 (R178). -/
theorem statusRead_resting (hm : p.motorOn = false) : statusRead cfg p = statusByte p.homePosition false := by
  rw [statusRead, statusAfter_resting hm, hm, Bool.false_and, Bool.false_and]

/-- While the motor stays on TG shows as it was before the count (R178). -/
theorem statusRead_counting (hm : p.motorOn = true) (hw : 2 ≤ p.watchdog) :
    statusRead cfg p = statusByte p.homePosition (tgBit cfg p) := by
  have hlasts : watchdogExpires p = false := by
    rw [← Bool.not_eq_true, watchdogExpires_iff]
    omega
  rw [statusRead, statusAfter_counting hm hw, hm, hlasts]
  rfl

/-- The read that stops the motor shows HOME alone (R178, R179). -/
theorem statusRead_stopping (hm : p.motorOn = true) (hw : p.watchdog = 1) : statusRead cfg p = 0x02 := by
  have hhome : statusByte true false = 0x02 := by decide
  have hexpires : watchdogExpires p = true := (watchdogExpires_iff p).2 ⟨hm, hw.le⟩
  rw [statusRead, statusAfter_stopping hm hw, hm, hexpires]
  exact hhome

end Status

/-- `IN.PRT` with the printer active is a status read (R85). -/
theorem exec_inPrt_active (T : Nat) {s : State} (hp : s.cfg.printerPresent = true)
    (hactive : s.cfg.printerActiveDef = .attached ∨ s.prt.motorOn = true) :
    exec (.inPrt T) s =
      .next { s with prt := statusAfter s.prt, result := .byte (statusRead s.cfg s.prt) } := by
  obtain ⟨-, e⟩ | ⟨hoff, -⟩ := execInPrt_cases T s
  · exact e
  · obtain habsent | ⟨hdef, hm⟩ := (printerActive_eq_false_iff s.cfg s.prt).1 hoff
    · simp [hp] at habsent
    · simp [hdef, hm] at hactive

/-- Settles O29: the three ends of a status read. -/
theorem statusReadCountsAndStops : Obligations.StatusReadCountsAndStops := by
  intro T s hp hactive
  rw [exec_inPrt_active T hp hactive]
  refine ⟨fun hm => ?_, fun hm hw => ?_, fun hm hw => ?_⟩
  · rw [statusAfter_resting hm, statusRead_resting s.cfg hm]
    simp [statusByte]
  · rw [statusAfter_counting hm hw, statusRead_counting s.cfg hm hw, statusByte, tgBit]
    simp only [beq_iff_eq, countRead]
  · rw [statusAfter_stopping hm hw, statusRead_stopping s.cfg hm hw, motorOff_eq, countRead, hw]
    rfl

-- Operations in a row

/-- Operations each of which does to the printer what `f` says, one after another: the printer they leave is `f`
folded over them. -/
theorem execAll_foldl_prt {α : Type} {op : α → Instr} {f : Printer → α → Printer} {s : State} (as : List α)
    (h : ∀ a t, t.cfg = s.cfg → ∃ u, exec (op a) t = .next u ∧ u.prt = f t.prt a) :
    ∃ t, execAll (as.map op) s = .next t ∧ t.prt = as.foldl f s.prt := by
  induction as generalizing s with
  | nil => exact ⟨s, rfl, rfl⟩
  | cons a as ih =>
    obtain ⟨u, hexec, hprt⟩ := h a s rfl
    obtain ⟨hcfg, -⟩ := exec_keeps_cfg_input hexec
    obtain ⟨t, hrest, hfold⟩ := ih (s := u) (hcfg ▸ h)
    refine ⟨t, ?_, ?_⟩
    · rw [List.map_cons, execAll, hexec]
      exact hrest
    · rw [hfold, hprt, List.foldl_cons]

-- Status reads in a row

/-- Of the printer alone, a read of port 0xCB does what a status read does, under either reading: an inactive printer
that is present is at rest (R85, R93). -/
theorem exec_inPrt_prt (T : Nat) {s : State} (hp : s.cfg.printerPresent = true) :
    ∃ t, exec (.inPrt T) s = .next t ∧ t.prt = statusAfter s.prt := by
  obtain ⟨-, e⟩ | ⟨hoff, e⟩ := execInPrt_cases T s
  · exact ⟨_, e, rfl⟩
  · obtain habsent | ⟨-, hm⟩ := (printerActive_eq_false_iff s.cfg s.prt).1 hoff
    · simp [hp] at habsent
    · exact ⟨_, e, (statusAfter_resting hm).symm⟩

/-- Reads of port 0xCB in a row are, for the printer, status reads in a row. -/
theorem execAll_inPrt_prt (T n : Nat) {s : State} (hp : s.cfg.printerPresent = true) :
    ∃ t, execAll (List.replicate n (.inPrt T)) s = .next t ∧ t.prt = statusAfter^[n] s.prt := by
  obtain ⟨t, hreads, hprt⟩ := execAll_foldl_prt (s := s) (op := .inPrt) (f := fun p _ => statusAfter p)
    (List.replicate n T) fun T _ hcfg => exec_inPrt_prt T (hcfg ▸ hp)
  rw [List.map_replicate] at hreads
  rw [List.foldl_const, List.length_replicate] at hprt
  exact ⟨t, hreads, hprt⟩

section Watchdog
variable {p : Printer}

/-- While the watchdog lasts the reads count (R179). -/
theorem statusAfter_iterate_counting (hm : p.motorOn = true) {n : Nat} (hn : n < p.watchdog) :
    statusAfter^[n] p = { p with
      tgPulseCounter := p.tgPulseCounter + n, watchdog := p.watchdog - n } := by
  induction n with
  | zero => rfl
  | succ n ih =>
    have hlasts : 2 ≤ p.watchdog - n := by omega
    rw [Function.iterate_succ_apply', ih (by omega)]
    exact statusAfter_counting hm hlasts

/-- The read that uses up the watchdog stops the motor, and flushes (R179). -/
theorem statusAfter_iterate_watchdog (hm : p.motorOn = true) (hw : 1 ≤ p.watchdog) :
    statusAfter^[p.watchdog] p = { flush p with
      motorOn := false, headPhase := .idle, homePosition := true, skipFirst := false
      tgPulseCounter := p.tgPulseCounter + p.watchdog, watchdog := 0 } := by
  obtain ⟨m, hm1⟩ := Nat.exists_eq_add_of_le' hw
  have hlast : p.watchdog - m = 1 := by omega
  rw [hm1, Function.iterate_succ_apply', statusAfter_iterate_counting hm (by omega), hlast]
  exact statusAfter_stopping hm rfl

/-- Once stopped the printer stays as it is (R178). -/
theorem statusAfter_iterate_resting (hm : p.motorOn = false) (n : Nat) : statusAfter^[n] p = p :=
  Function.iterate_fixed (statusAfter_resting hm) n

end Watchdog

/-- Settles O30: the reads count up to the watchdog's last, which stops the motor; the others find it at rest. -/
theorem watchdogStopsMotorOnce : Obligations.WatchdogStopsMotorOnce := by
  intro T n s hp hm hw
  obtain ⟨t, hreads, hprt⟩ := execAll_inPrt_prt T n hp
  refine ⟨t, hreads, fun hn => hprt.trans (statusAfter_iterate_counting hm hn), fun hn => ?_⟩
  rw [hprt, ← Nat.sub_add_cancel hn, Function.iterate_add_apply, statusAfter_iterate_watchdog hm hw]
  exact statusAfter_iterate_resting rfl _

-- A printing pass

/-- Control writes in a row are, for the printer, its control writes in a row. -/
theorem execAll_outPrt_prt (T : Nat) (vs : List Byte) {s : State} (hp : s.cfg.printerPresent = true) :
    ∃ t, execAll (vs.map fun v => .outPrt v T) s = .next t ∧ t.prt = vs.foldl (writeControl s.cfg) s.prt :=
  execAll_foldl_prt vs fun v t hcfg =>
    ⟨_, execOutPrt_present v T (hcfg ▸ hp), congrArg (writeControl · t.prt v) hcfg⟩

section Pass
variable (cfg : Config) {p : Printer} {ws : List Byte} (hws : ∀ w ∈ ws, w.getLsbD 7 = true)
include hws

/-- Past the skipped column every write of a pass pushes its pins (R174). -/
theorem foldl_writeControl_pushes (hm : p.motorOn = true) (hskip : p.skipFirst = false) :
    ∃ data wd, ws.foldl (writeControl cfg) p = { p with
      columnBuffer := p.columnBuffer ++ ws.map thermalPins, lineHasData := data, watchdog := wd } := by
  induction ws generalizing p with
  | nil => exact ⟨p.lineHasData, p.watchdog, by simp⟩
  | cons w ws ih =>
    obtain ⟨hw, hws⟩ := List.forall_mem_cons.1 hws
    rw [List.foldl_cons, writeControl_columns cfg hw hm, columnWrite_pushes cfg _ hskip]
    obtain ⟨data, wd, hfold⟩ := ih hws (p := { p with
      columnBuffer := p.columnBuffer ++ [thermalPins w], lineHasData := true, watchdog := cfg.watchdogReload }) hm hskip
    exact ⟨data, wd, by rw [hfold, List.map_cons, ← List.append_cons]⟩

/-- From a motor start the writes of a pass push the pins of all but the first (R174, D25). -/
theorem foldl_writeControl_skips_first (hm : p.motorOn = true) (hskip : p.skipFirst = true) :
    ∃ skip data wd, ws.foldl (writeControl cfg) p = { p with
      skipFirst := skip, columnBuffer := p.columnBuffer ++ ws.tail.map thermalPins
      lineHasData := data, watchdog := wd } := by
  cases ws with
  | nil => exact ⟨p.skipFirst, p.lineHasData, p.watchdog, by simp⟩
  | cons w ws =>
    obtain ⟨hw, hws⟩ := List.forall_mem_cons.1 hws
    rw [List.foldl_cons, writeControl_columns cfg hw hm, columnWrite_skips cfg _ hskip]
    obtain ⟨data, wd, hfold⟩ := foldl_writeControl_pushes cfg hws
      (p := { p with skipFirst := false, watchdog := cfg.watchdogReload }) hm rfl
    exact ⟨false, data, wd, hfold⟩

/-- What a whole pass leaves, from a clean line (R181). -/
theorem foldl_writeControl_pass {start stop : Byte} (hstart : start.getLsbD 7 = true) (hstop : stop.getLsbD 7 = false)
    (hm : p.motorOn = false) (hbuf : p.columnBuffer = []) (hdata : p.lineHasData = false) :
    ∃ data wd, (start :: (ws ++ [stop])).foldl (writeControl cfg) p = { p with
      motorOn := false, headPhase := .idle, tgPulseCounter := 0, homePosition := true, skipFirst := false
      columnBuffer := [], cursorX := ws.length - 1
      paper := plotColumns p.paperY (ws.tail.map thermalPins) 0 p.paper
      lineHasData := data, watchdog := wd } := by
  rw [List.foldl_cons, List.foldl_append, writeControl_starts cfg hstart hm, motorStart_eq cfg hbuf,
    paperAtStart_clean cfg hdata]
  obtain ⟨skip, data, wd, hfold⟩ := foldl_writeControl_skips_first cfg hws (p := { p with
    motorOn := true, headPhase := .right, tgPulseCounter := 0, homePosition := false, skipFirst := true
    cursorX := 0, watchdog := cfg.watchdogReload, lineHasData := false }) rfl rfl
  refine ⟨data, wd, ?_⟩
  rw [hfold, List.foldl_cons, List.foldl_nil, writeControl_stops cfg hstop rfl, motorOff_eq, hbuf, List.nil_append,
    List.length_map, List.length_tail, Nat.zero_add]

end Pass

/-- The dots of the columns a pass prints, over the bytes written (R181). -/
theorem mem_plotColumns_tail_thermalPins (y : Nat) (ws : List Byte) (paper : List Dot) (d : Dot) :
    d ∈ plotColumns y (ws.tail.map thermalPins) 0 paper ↔
      d ∈ paper ∨ ∃ (c b : Nat) (w : Byte), ws[c + 1]? = some w ∧ b ≤ 6 ∧ w.getLsbD b = true ∧
        d = ⟨c, y + (6 - b)⟩ := by
  rw [mem_plotColumns]
  refine or_congr_right (exists_congr fun c => exists_congr fun b => ?_)
  simp only [List.getElem?_map, List.getElem?_tail, Option.map_eq_some_iff, Nat.zero_add]
  constructor
  · rintro ⟨_, ⟨w, hw, rfl⟩, hb, hbit, hd⟩
    exact ⟨w, hw, hb, thermalPins_getLsbD w hb ▸ hbit, hd⟩
  · rintro ⟨w, hw, hb, hbit, hd⟩
    exact ⟨_, ⟨w, hw, rfl⟩, hb, (thermalPins_getLsbD w hb).trans hbit, hd⟩

/-- Settles O31: the pass is one list of control writes, and its dots are those of the columns behind the first. -/
theorem passPrintsAllButFirstColumn : Obligations.PassPrintsAllButFirstColumn := by
  intro start stop writes T s hp hm hbuf hdata hstart hstop hwrites
  obtain ⟨t, hexec, hprt⟩ := execAll_outPrt_prt T (start :: (writes ++ [stop])) hp
  obtain ⟨_, _, hpass⟩ := foldl_writeControl_pass s.cfg hwrites hstart hstop hm hbuf hdata
  rw [List.map_cons, List.map_append] at hexec
  refine ⟨t, hexec, ?_⟩
  rw [hprt, hpass]
  exact ⟨rfl, rfl, rfl, rfl, rfl, mem_plotColumns_tail_thermalPins s.prt.paperY writes s.prt.paper⟩

end Sys2Proof.Machine
end

