-- ==== Sys2Proof/Proofs/Exceptions.lean ====
section
/-! PROOF. The statements of spec/60_exceptions.md: which operations are refused and when, and that the diagnostic log
is read by nothing. -/

namespace Sys2Proof.Machine

-- Refusals

/-- `ExecRefusal s i r`: the operation `i` is refused in the state `s`, for the reason `r`. One constructor per refusal
of an operation (R204). -/
inductive ExecRefusal (s : State) : Instr → Refusal → Prop where
  /-- `OUT.DIG`, by stamp test (b) (R61). -/
  | beforeLastEdge (v : Byte) (T : Nat) (stamp : beforeLastEdge s.tape T = true) :
      ExecRefusal s (.outDig v T) .stampBeforeLastEdge
  /-- `IN.TAPE`, by stamp test (a) (R61). -/
  | beforeOrigin (p : Byte) (T : Nat) (stamp : beforeOrigin s.tape T = true) :
      ExecRefusal s (.inTape p T) .stampBeforeOrigin
  /-- `SYNTH_WAV`, by the size test (R156). -/
  | wavTooLong (two : 2 ≤ s.tape.edgeLog.length) (size : 2 ^ 32 ≤ 36 + 2 * wavTotal s.cfg s.tape.edgeLog) :
      ExecRefusal s .synthWav .wavTooLong

/-- The operations that are refused, and no others: every branch of a meaning but these three answers a next state. -/
theorem exec_refused_iff {i : Instr} {s : State} {r : Refusal} : exec i s = .refused r ↔ ExecRefusal s i r := by
  constructor
  · intro h
    cases i with
    | outDig v T =>
      cases hb : beforeLastEdge s.tape T with
      | false => cases (execOutDig_next hb).symm.trans h
      | true => cases (execOutDig_refused hb).symm.trans h; exact .beforeLastEdge v T hb
    | inTape p T =>
      cases hb : beforeOrigin s.tape T with
      | false => cases (execInTape_next (p := p) hb).symm.trans h
      | true => cases (execInTape_refused (p := p) hb).symm.trans h; exact .beforeOrigin p T hb
    | synthWav =>
      obtain ⟨-, e⟩ | ⟨-, -, e⟩ | ⟨htwo, hlong, e⟩ := execSynthWav_cases s
      · cases e.symm.trans h
      · cases e.symm.trans h
      · cases e.symm.trans h
        exact .wavTooLong htwo (Nat.le_of_not_lt (mt (wavFits_iff ..).2 (ne_true_of_eq_false hlong)))
    | outPrt v T => obtain ⟨-, e⟩ | ⟨-, e⟩ := execOutPrt_cases v T s <;> cases e.symm.trans h
    | inPrt T => obtain ⟨-, e⟩ | ⟨-, e⟩ := execInPrt_cases T s <;> cases e.symm.trans h
    | click row col => obtain ⟨_, _, e⟩ | ⟨-, e⟩ := execClick_cases row col s <;> cases e.symm.trans h
    | _ => cases h
  · rintro (⟨v, T, hb⟩ | ⟨p, T, hb⟩ | ⟨htwo, hlong⟩)
    · exact execOutDig_refused hb
    · exact execInTape_refused (p := p) hb
    · exact exec_synthWav_refused htwo hlong

/-- Settles O3: there is no fault to end in, and each refusal is one of `ExecRefusal`, its stamp test written out. -/
theorem onlyThreeRefusals : Obligations.OnlyThreeRefusals := by
  refine fun i s => ⟨nofun, fun r => exec_refused_iff.trans ⟨?_, ?_⟩⟩
  · rintro (⟨v, T, hb⟩ | ⟨p, T, hb⟩ | ⟨htwo, hlong⟩)
    · obtain ⟨e, hlast, hT⟩ := (beforeLastEdge_iff s.tape T).1 hb
      exact .inl ⟨rfl, v, T, e, rfl, hlast, hT⟩
    · exact .inr (.inl ⟨rfl, p, T, rfl, (beforeOrigin_iff s.tape T).1 hb⟩)
    · exact .inr (.inr ⟨rfl, rfl, htwo, hlong⟩)
  · rintro (⟨rfl, v, T, e, rfl, hlast, hT⟩ | ⟨rfl, p, T, rfl, horigin⟩ | ⟨rfl, rfl, htwo, hlong⟩)
    · exact .beforeLastEdge v T ((beforeLastEdge_iff s.tape T).2 ⟨e, hlast, hT⟩)
    · exact .beforeOrigin p T ((beforeOrigin_iff s.tape T).2 horigin)
    · exact .wavTooLong htwo hlong

-- The diagnostic log

/-- No refusal depends on the diagnostic log (R35, R201). -/
theorem execRefusal_with_diagLog {i : Instr} {s : State} {r : Refusal} (log : List Diag) (h : ExecRefusal s i r) :
    ExecRefusal { s with diagLog := log } i r := by
  cases h with
  | beforeLastEdge v T hb => exact .beforeLastEdge v T hb
  | beforeOrigin p T hb => exact .beforeOrigin p T hb
  | wavTooLong htwo hlong => exact .wavTooLong htwo hlong

/-- An operation answered under one diagnostic log is answered under any other, the branch it takes and what it writes
outside the log being the same (R35, R201). -/
theorem exec_next_with_diagLog {i : Instr} {s t : State} (log : List Diag) (h : exec i s = .next t) :
    ∃ log', exec i { s with diagLog := log } = .next { t with diagLog := log' } := by
  cases i with
  | outDig v T =>
    cases hb : beforeLastEdge s.tape T with
    | false => cases (execOutDig_next hb).symm.trans h; exact ⟨_, execOutDig_next hb⟩
    | true => cases (execOutDig_refused hb).symm.trans h
  | inTape p T =>
    cases hb : beforeOrigin s.tape T with
    | false => cases (execInTape_next (p := p) hb).symm.trans h; exact ⟨_, execInTape_next (p := p) hb⟩
    | true => cases (execInTape_refused (p := p) hb).symm.trans h
  | outPrt v T =>
    obtain ⟨hp, e⟩ | ⟨hp, e⟩ := execOutPrt_cases v T s
    · cases e.symm.trans h; exact ⟨_, execOutPrt_present v T hp⟩
    · cases e.symm.trans h; exact ⟨_, execOutPrt_absent v T hp⟩
  | inPrt T =>
    obtain ⟨ha, e⟩ | ⟨ha, e⟩ := execInPrt_cases T s
    · cases e.symm.trans h; exact ⟨_, if_pos ha⟩
    · cases e.symm.trans h; exact ⟨_, execInPrt_inactive T ha⟩
  | click row col =>
    obtain ⟨hr, hc, e⟩ | ⟨hout, e⟩ := execClick_cases row col s
    · cases e.symm.trans h; exact ⟨_, dif_pos ⟨hr, hc⟩⟩
    · cases e.symm.trans h; exact ⟨_, dif_neg hout⟩
  | synthWav =>
    obtain ⟨hfew, e⟩ | ⟨htwo, hfits, e⟩ | ⟨-, -, e⟩ := execSynthWav_cases s
    · cases e.symm.trans h; exact ⟨_, if_pos hfew⟩
    · cases e.symm.trans h; exact ⟨_, exec_synthWav_file htwo ((wavFits_iff ..).1 hfits)⟩
    · cases e.symm.trans h
  | _ => cases h; exact ⟨_, rfl⟩

/-- Settles O56: both kinds of outcome carry over to another log. -/
theorem diagnosticsAreNeverRead : Obligations.DiagnosticsAreNeverRead := fun _ _ log =>
  ⟨fun _ => exec_next_with_diagLog log,
    fun _ h => exec_refused_iff.2 (execRefusal_with_diagLog log (exec_refused_iff.1 h))⟩

end Sys2Proof.Machine
end

section
/-! PROOF. The statements no one device owns: that the reset state meets the invariants of spec/10_state.md section 7
and every step keeps them, and the single rules about stamps, selectors, the display, write-only ports, the status byte
and the end of the tape. -/

namespace Sys2Proof.Machine

-- The invariants, device by device

/-- A printer at rest: motor off, head home, nothing buffered, nothing to skip (R26, R39 (a), (b)). -/
structure PrinterResting (p : Printer) : Prop where
  motor : p.motorOn = false
  phase : p.headPhase = .idle
  home : p.homePosition = true
  flushed : p.columnBuffer = []
  skip : p.skipFirst = false

/-- A printer with its motor on: head moving right, away from home, the watchdog not used up (R39 (a), (c)). -/
structure PrinterRunning (reload : Nat) (p : Printer) : Prop where
  motor : p.motorOn = true
  phase : p.headPhase = .right
  home : p.homePosition = false
  watchdogPos : 1 ≤ p.watchdog
  watchdogLe : p.watchdog ≤ reload

/-- The printer's part of the invariants but for the line queue (R26, R39 (a) to (c)). -/
abbrev PrinterInv (reload : Nat) (p : Printer) : Prop := PrinterResting p ∨ PrinterRunning reload p

/-- The keypad's part of the invariants (R39 (d)). -/
abbrev KeypadInv (k : Keypad) : Prop := 0 ≤ k.keyHold ∧ k.keyHold ≤ 4

/-- The tape's part of the invariants: along the edge log the level changes and the stamp does not decrease
(R39 (e), (h)). -/
abbrev TapeInv (tape : Tape) : Prop :=
  tape.edgeLog.IsChain (fun e e' => e.level ≠ e'.level) ∧ tape.edgeLog.IsChain (fun e e' => e.t ≤ e'.t)

/-- The display's part of the invariants (R39 (f)). -/
abbrev DisplayInv (d : Display) : Prop := ∀ k, (d.seg.get k).zc ≤ 2

/-- The invariants are those of the four devices, with the line queue's. -/
theorem inv_iff_devices (s : State) :
    Inv s ↔ (PrinterInv s.cfg.watchdogReload s.prt ∧ s.prt.lineQueueDepth = 0) ∧
      KeypadInv s.keyp ∧ TapeInv s.tape ∧ DisplayInv s.disp := by
  constructor
  · rintro ⟨hmotor, hhome, hphase, hoff, hwatchdog, hkeyp, hlevels, hdisp, hqueue, hstamps⟩
    refine ⟨⟨?_, hqueue⟩, hkeyp, ⟨hlevels, hstamps⟩, hdisp⟩
    cases hm : s.prt.motorOn with
    | true =>
      obtain ⟨hpos, hle⟩ := hwatchdog hm
      exact .inr ⟨hm, hmotor.1 hm, by rw [hhome, hm]; rfl, hpos, hle⟩
    | false =>
      obtain ⟨hflushed, hskip⟩ := hoff hm
      have hidle : s.prt.headPhase = .idle := by
        cases hp : s.prt.headPhase with
        | idle => rfl
        | right => simp [hmotor.2 hp] at hm
        | ret => exact absurd hp hphase
      exact .inl ⟨hm, hidle, by rw [hhome, hm]; rfl, hflushed, hskip⟩
  · rintro ⟨⟨⟨hm, hphase, hhome, hflushed, hskip⟩ | ⟨hm, hphase, hhome, hpos, hle⟩, hqueue⟩,
      hkeyp, ⟨hlevels, hstamps⟩, hdisp⟩
    · exact ⟨by simp [hm, hphase], by simp [hm, hhome], by simp [hphase], fun _ => ⟨hflushed, hskip⟩,
        by simp [hm], hkeyp, hlevels, hdisp, hqueue, hstamps⟩
    · exact ⟨by simp [hm, hphase], by simp [hm, hhome], by simp [hphase], by simp [hm],
        fun _ => ⟨hpos, hle⟩, hkeyp, hlevels, hdisp, hqueue, hstamps⟩

-- The printer's operations keep its invariant

section Printer
variable {cfg : Config} {reload : Nat} {p : Printer}

/-- A motor start leaves the motor running, its watchdog reloaded (R172). -/
theorem motorStart_running (hreload : 1 ≤ cfg.watchdogReload) :
    PrinterRunning cfg.watchdogReload (motorStart cfg p) :=
  ⟨rfl, rfl, rfl, hreload, Nat.le_refl _⟩

/-- A column write leaves the motor running, its watchdog reloaded (R174). -/
theorem columnWrite_running (hreload : 1 ≤ cfg.watchdogReload) (pins : Column)
    (h : PrinterRunning reload p) : PrinterRunning cfg.watchdogReload (columnWrite cfg p pins) := by
  cases hskip : p.skipFirst with
  | true => rw [columnWrite_skips cfg pins hskip]; exact ⟨h.motor, h.phase, h.home, hreload, Nat.le_refl _⟩
  | false => rw [columnWrite_pushes cfg pins hskip]; exact ⟨h.motor, h.phase, h.home, hreload, Nat.le_refl _⟩

/-- A motor stop leaves the printer at rest, whatever it found (R176, D27). -/
theorem motorOff_resting (p : Printer) : PrinterResting (motorOff p) := ⟨rfl, rfl, rfl, rfl, rfl⟩

/-- A status read that does not use up the watchdog leaves the motor running (R179). -/
theorem countRead_running (hw : 2 ≤ p.watchdog) (h : PrinterRunning reload p) :
    PrinterRunning reload (countRead p) :=
  ⟨h.motor, h.phase, h.home, Nat.le_sub_one_of_lt hw, (Nat.sub_le _ _).trans h.watchdogLe⟩

theorem PrinterInv.running (h : PrinterInv reload p) (hm : p.motorOn = true) : PrinterRunning reload p :=
  h.resolve_left fun hrest => by simp [hrest.motor] at hm

/-- Every control write keeps the printer's invariant (R171). -/
theorem writeControl_keeps_inv (hreload : 1 ≤ cfg.watchdogReload) (v : Byte)
    (h : PrinterInv cfg.watchdogReload p) : PrinterInv cfg.watchdogReload (writeControl cfg p v) := by
  obtain ⟨-, -, e⟩ | ⟨-, hm, e⟩ | ⟨-, -, e⟩ | ⟨-, -, e⟩ := writeControl_cases cfg p v <;> rw [e]
  · exact .inr (motorStart_running hreload)
  · exact .inr (columnWrite_running hreload (thermalPins v) (h.running hm))
  · exact .inl (motorOff_resting p)
  · exact h

/-- Every status read keeps the printer's invariant (R178, R179). -/
theorem statusAfter_keeps_inv (h : PrinterInv reload p) : PrinterInv reload (statusAfter p) := by
  obtain ⟨-, e⟩ | ⟨-, -, e⟩ | ⟨hm, hw, e⟩ := statusAfter_cases p <;> rw [e]
  · exact h
  · exact .inl (motorOff_resting (countRead p))
  · exact .inr (countRead_running hw (h.running hm))

end Printer

-- The other devices' operations keep their invariants

/-- The countdown stays in its range: it counts down to 0 and is then reloaded (R125). -/
theorem holdStep_keeps_inv {k : Keypad} (h : KeypadInv k) : KeypadInv (holdStep k) := by
  obtain hhold | hrelease := le_or_gt 1 k.keyHold
  · rw [holdStep_holding hhold]
    simp only [KeypadInv] at h ⊢
    omega
  · rw [holdStep_releasing (Int.le_of_lt_add_one hrelease)]
    simp [KeypadInv]

/-- A keypad read keeps the countdown in its range, whether it matches or not (R123). -/
theorem keypadAfter_keeps_inv (cfg : Config) (ds : Strobe) {k : Keypad} (h : KeypadInv k) :
    KeypadInv (keypadAfter cfg ds k) := by
  cases hm : keyMatches cfg ds k with
  | false =>
    obtain ⟨hafter, -, -⟩ := keypad_unmatched hm
    rwa [hafter]
  | true =>
    obtain ⟨hafter, -, -⟩ := keypad_matched hm
    rw [hafter]
    exact holdStep_keeps_inv h

/-- Recording keeps the edge log's invariant: an entry is added only for a new level (R150), and stamp test (b) has let
only a stamp through that is not before the last entry's (R61). -/
theorem recordEdge_keeps_inv {tape : Tape} {v : Byte} {T : Nat} (hstamp : beforeLastEdge tape T = false)
    (h : TapeInv tape) : TapeInv (recordEdge tape v T) := by
  obtain ⟨hlevels, hstamps⟩ := h
  have hle : ∀ e ∈ tape.edgeLog.getLast?, e.t ≤ T := fun e he =>
    Nat.le_of_not_lt fun hlt => by simp [(beforeLastEdge_iff tape T).2 ⟨e, he, hlt⟩] at hstamp
  by_cases hlast : ∃ e, tape.edgeLog.getLast? = some e ∧ e.level = outputLevel v
  · obtain ⟨e, he, hl⟩ := hlast
    rw [recordEdge_same he hl]
    exact ⟨hlevels, hstamps⟩
  · have hnew : ∀ e, tape.edgeLog.getLast? = some e → e.level ≠ outputLevel v :=
      fun e he hl => hlast ⟨e, he, hl⟩
    rw [recordEdge_new hnew]
    exact ⟨hlevels.append (.singleton _) (by simpa using hnew), hstamps.append (.singleton _) (by simpa using hle)⟩

/-- A segment write keeps every counter at most 2 (R107). -/
theorem writeSegments_keeps_inv (d : Display) (v : Byte) : DisplayInv (writeSegments d v) := by
  intro k
  rw [writeSegments_seg, stepSegments_get]
  exact stepSegment_zc_le _ _

-- The whole machine

/-- The reset state meets the invariants, its printer at rest (R231). -/
theorem resetWith_inv (cfg : Config) : Inv (State.resetWith cfg) :=
  (inv_iff_devices _).2
    ⟨⟨.inl ⟨rfl, rfl, rfl, rfl, rfl⟩, rfl⟩, by simp [KeypadInv, Keypad.reset], ⟨.nil, .nil⟩,
      fun k => by simp [Display.reset]⟩

/-- No invariant reads the operations still to come. -/
theorem Inv.setInput {s : State} (h : Inv s) (rs : List Request) : Inv (s.setInput rs) :=
  (inv_iff_devices _).2 ((inv_iff_devices s).1 h)

/-- Every answered operation keeps the invariants when the watchdog's reload value is not 0: the device an effect writes
keeps its own, and the other devices are as they were. -/
theorem exec_keeps_inv {i : Instr} {s t : State} (hreload : 1 ≤ s.cfg.watchdogReload) (hs : Inv s)
    (h : exec i s = .next t) : Inv t := by
  obtain ⟨⟨hprt, hqueue⟩, hkeyp, htape, hdisp⟩ := (inv_iff_devices s).1 hs
  rw [inv_iff_devices]
  cases execEffect_of_next h with
  | segments v T => exact ⟨⟨hprt, hqueue⟩, hkeyp, htape, writeSegments_keeps_inv s.disp v⟩
  | digit v T hstamp =>
    have hrecord : TapeInv (recordEdge (setTone s.tape v) v T) := recordEdge_keeps_inv hstamp htape
    exact ⟨⟨hprt, hqueue⟩, hkeyp, hrecord, hdisp⟩
  | control v T =>
    exact ⟨⟨writeControl_keeps_inv hreload v hprt, (writeControl_lineQueueDepth ..).trans hqueue⟩, hkeyp, htape, hdisp⟩
  | status T =>
    obtain ⟨hkept, -, -⟩ := statusAfter_frame s.prt
    exact ⟨⟨statusAfter_keeps_inv hprt, hkept.trans hqueue⟩, hkeyp, htape, hdisp⟩
  | keypad => exact ⟨⟨hprt, hqueue⟩, keypadAfter_keeps_inv s.cfg s.disp.ds hkeyp, htape, hdisp⟩
  | playback p T =>
    refine ⟨⟨hprt, hqueue⟩, hkeyp, ?_, hdisp⟩
    rw [takeOrigin_eq]
    exact htape
  | reset => exact (inv_iff_devices _).1 ((resetWith_inv s.cfg).setInput s.input)
  | clear => exact ⟨⟨hprt, hqueue⟩, hkeyp, htape, fun k => by simp⟩
  | record => exact ⟨⟨hprt, hqueue⟩, hkeyp, ⟨.nil, .nil⟩, hdisp⟩
  | click | load | answers | reports => exact ⟨⟨hprt, hqueue⟩, hkeyp, htape, hdisp⟩

/-- Settles O53: an idle step changes nothing, any other runs an operation on the state with its request taken, under an
admitted configuration, whose watchdog reload is positive. -/
theorem stepKeepsInvariants : Obligations.StepKeepsInvariants := by
  intro s t hs h
  obtain ⟨ha, ⟨-, rfl⟩ | ⟨r, rest, i, -, -, he⟩⟩ := step_next_cases h
  · exact hs
  · obtain ⟨-, -, -, -, -, -, hreload, -, -⟩ := (admitted_iff s.cfg).1 ha
    exact exec_keeps_inv (s := s.setInput rest) hreload (hs.setInput rest) he

/-- Settles O52: the devices' reset values, and an empty paper. -/
theorem resetMeetsInvariants : Obligations.ResetMeetsInvariants :=
  ⟨fun cfg => ⟨resetWith_inv cfg, List.Pairwise.nil⟩, resetWith_inv Config.reference⟩

-- The status byte

/-- After a status read the motor is on just when it was on and the watchdog did not run out (R179). -/
theorem statusAfter_motorOn (p : Printer) : (statusAfter p).motorOn = (p.motorOn && !watchdogExpires p) := by
  obtain ⟨hm, e⟩ | ⟨hm, hw, e⟩ | ⟨hm, hw, e⟩ := statusAfter_cases p
  · rw [e, hm, Bool.false_and]
  · rw [e, hm, (watchdogExpires_iff p).2 ⟨hm, hw⟩]; rfl
  · have hlasts : watchdogExpires p = false := by
      rw [← Bool.not_eq_true, watchdogExpires_iff]
      omega
    rw [e, hlasts, Bool.not_false, Bool.and_true]
    rfl

/-- A status read keeps HOME the motor's opposite (R39 (a)). -/
theorem statusAfter_homePosition {p : Printer} (h : p.homePosition = !p.motorOn) :
    (statusAfter p).homePosition = !(statusAfter p).motorOn := by
  obtain ⟨-, e⟩ | ⟨-, -, e⟩ | ⟨-, -, e⟩ := statusAfter_cases p <;> rw [e]
  · exact h
  · rfl
  · exact h

/-- A status byte whose HOME is the motor's opposite and whose TG the motor gates never has both bits (R178). -/
theorem statusByte_not_both (motor tg : Bool) :
    statusByte (!motor) (motor && tg) = 0x00 ∨ statusByte (!motor) (motor && tg) = 0x01 ∨
      statusByte (!motor) (motor && tg) = 0x02 := by
  revert motor tg
  decide

/-- Settles O32: HOME and TG are both gated by the motor as the read leaves it, one by its being off, the other by its
being on. -/
theorem statusByteNeverThree : Obligations.StatusByteNeverThree := by
  intro T s hp hactive hhome
  refine ⟨_, _, exec_inPrt_active T hp hactive, rfl, ?_⟩
  rw [statusRead, statusAfter_homePosition hhome, ← statusAfter_motorOn]
  exact statusByte_not_both _ _

-- The end of the tape

/-- No tape level reads as 0xFF, so 0xFF marks the end of the tape (R147). -/
theorem playbackByte_eq_FF_iff (cfg : Config) (tape : Tape) (elapsed : Nat) :
    playbackByte cfg tape elapsed = 0xFF ↔
      (tape.sourceBytes.length : Int) ≤ ⌊(elapsed : Rat) / (cfg.avgBitT.toRat * 10)⌋ := by
  refine ⟨fun h => not_lt.1 fun hlt => ?_, playbackByte_past⟩
  rw [playbackByte_within hlt] at h
  split at h <;> simp at h

/-- The bit time of an admitted configuration is positive (R5). -/
theorem avgBitT_pos {cfg : Config} (ha : admitted cfg = true) : 0 < cfg.avgBitT.toRat := by
  obtain ⟨-, -, -, -, hbit, -⟩ := (admitted_iff cfg).1 ha
  obtain ⟨hnum, hden⟩ := (ratioPositive_iff _).1 hbit
  rw [Ratio.toRat]
  positivity

/-- Settles O38: `n ≤ ⌊elapsed / BYTE_T⌋` just when `n * BYTE_T ≤ elapsed`. -/
theorem tapeLastsItsBytes : Obligations.TapeLastsItsBytes := by
  intro p T s ha htaken hle
  have htest : beforeOrigin s.tape T = false := by
    rw [← Bool.not_eq_true, beforeOrigin_iff]
    omega
  have horigin : (takeOrigin s.tape T).playbackOriginT = s.tape.playbackOriginT := by
    rw [takeOrigin_eq, htaken]
    rfl
  have hbyte : 0 < s.cfg.avgBitT.toRat * 10 := mul_pos (avgBitT_pos ha) (by norm_num)
  refine ⟨_, _, execInTape_next (p := p) htest, rfl, ?_⟩
  rw [readBitByte, horigin, playbackByte_eq_FF_iff, Int.le_floor, le_div_iff₀ hbyte, Int.cast_natCast]

/-- Settles O39, by stamp test (a). -/
theorem inTapeRefusedBeforeOrigin : Obligations.InTapeRefusedBeforeOrigin := fun p T s htaken hlt =>
  execInTape_refused (p := p) ((beforeOrigin_iff s.tape T).2 ⟨htaken, hlt⟩)

-- Stamps and selectors

/-- Settles O5: the meaning of every operation but the two takes no part of its stamp. -/
theorem stampReadByTwoOperations : Obligations.StampReadByTwoOperations := by
  intro i s T hdig htape
  cases i with
  | outDig v t => exact absurd rfl (hdig v t)
  | inTape p t => exact absurd rfl (htape p t)
  | _ => rfl

/-- Settles O9, selector by selector. -/
theorem hostSelectorsDecode : Obligations.HostSelectorsDecode := fun _ _ _ _ =>
  ⟨rfl, rfl, rfl, rfl, rfl, rfl, rfl, rfl⟩

/-- Settles O18, by stamp test (b). -/
theorem outDigRefusedBeforeLastEdge : Obligations.OutDigRefusedBeforeLastEdge := fun _ T s e hlast hlt =>
  execOutDig_refused ((beforeLastEdge_iff s.tape T).2 ⟨e, hlast, hlt⟩)

-- The display cleared, write-only ports, reset

/-- Settles O19: the cleared driver's segments and glyphs are all one value. -/
theorem displayClearDarkensAll : Obligations.DisplayClearDarkensAll := fun _ =>
  ⟨_, rfl, rfl, PerSeg.get_all _, fun slot k => by simp⟩

/-- Settles O47: the three rows are reads with no handler. -/
theorem writeOnlyPortsReadFF : Obligations.WriteOnlyPortsReadFF := fun _ s =>
  have hread := congrArg Host.Outcome.next (readNoHandler_eq s)
  ⟨hread, hread, hread⟩

/-- Settles O51, element by element. -/
theorem resetRestoresEveryElement : Obligations.ResetRestoresEveryElement := by
  intro s
  refine ⟨_, rfl, rfl, rfl, rfl, rfl, PerSeg.get_all _, fun slot k => ?_, ?_⟩
  · simp [Display.reset]
  · simp [Keypad.reset, Tape.reset, Printer.reset]

end Sys2Proof.Machine
end
